-- ==== Sys2Proof/Word.lean ====
section
/-! DEFINITION. The widths of this hardware (00_scope.md R6, R7, R8): every value is an unsigned bit vector of a fixed width. -/

namespace Sys2Proof

/-- A byte: a general register, the delay timer, a memory cell (R6 `REG_W`, `DT_W`). -/
abbrev Byte := BitVec 8

/-- A 16-bit word: `I`, `PC`, a stack entry, `KEYS`, an instruction word (R6). -/
abbrev Word := BitVec 16

/-- A 4-bit field of an instruction: the sprite height `n`, a key code (R77, R224). -/
abbrev Nibble := BitVec 4

/-- The index 0x0..0xF of a general register, as the `x` and `y` fields hold it (R21, R77). -/
abbrev RegIdx := BitVec 4

/-- The 12-bit address field `nnn` (R77). -/
abbrev Addr12 := BitVec 12

end Sys2Proof
end

