-- ==== Sys2Proof/Machine/Flags.lean ====
section
/-! DEFINITION. The values written to `VF` by the arithmetic of family 8 (41_alu.md R126 to R130), computed on unbounded naturals (R8). -/

namespace Sys2Proof.Machine

/-- A comparison's value in a register: 1 for true, 0 for false (R8). -/
def flagByte (b : Bool) : Byte := if b then 1#8 else 0#8

/-- 8xy4: the carry, `a + b > 255` (R126). -/
def carryFlag (a b : Byte) : Byte := flagByte (decide (a.toNat + b.toNat > 255))

/-- 8xy5 and 8xy7: 1 exactly when the minuend is strictly greater than the subtrahend (R127, R129, C1). -/
def notBorrowFlag (minuend subtrahend : Byte) : Byte := flagByte (decide (minuend.toNat > subtrahend.toNat))

/-- 8xy6: the bit shifted out, old bit 0 (R128). -/
def shiftRightFlag (a : Byte) : Byte := a &&& 1#8

/-- 8xyE: the bit shifted out, old bit 7 (R130). -/
def shiftLeftFlag (a : Byte) : Byte := a >>> 7

end Sys2Proof.Machine
end

