-- ==== Sys2Proof/Syntax.lean ====
section
/-! DEFINITION. The instructions of this hardware: one constructor per row of the opcode map (30_encoding.md R80), with the fields
its pattern names (R77). The field `y` of 8xy6 and 8xyE selects nothing (10_state.md R23) and is kept, so that no bit of a word is lost. -/

namespace Sys2Proof

/-- The 35 instructions of R80, in the table's order. -/
inductive Instr where
  /-- 00E0 CLS (R171). -/
  | cls
  /-- 00EE RET (R100). -/
  | ret
  /-- 0nnn SYS, `nnn` neither 0E0 nor 0EE (R101). -/
  | sys (nnn : Addr12)
  /-- 1nnn JP addr (R102). -/
  | jp (nnn : Addr12)
  /-- 2nnn CALL addr (R103). -/
  | call (nnn : Addr12)
  /-- 3xkk SE Vx, byte (R104). -/
  | seImm (x : RegIdx) (kk : Byte)
  /-- 4xkk SNE Vx, byte (R105). -/
  | sneImm (x : RegIdx) (kk : Byte)
  /-- 5xy0 SE Vx, Vy (R106). -/
  | seReg (x y : RegIdx)
  /-- 6xkk LD Vx, byte (R120). -/
  | ldImm (x : RegIdx) (kk : Byte)
  /-- 7xkk ADD Vx, byte (R121). -/
  | addImm (x : RegIdx) (kk : Byte)
  /-- 8xy0 LD Vx, Vy (R122). -/
  | ldReg (x y : RegIdx)
  /-- 8xy1 OR Vx, Vy (R123). -/
  | orReg (x y : RegIdx)
  /-- 8xy2 AND Vx, Vy (R124). -/
  | andReg (x y : RegIdx)
  /-- 8xy3 XOR Vx, Vy (R125). -/
  | xorReg (x y : RegIdx)
  /-- 8xy4 ADD Vx, Vy (R126). -/
  | addReg (x y : RegIdx)
  /-- 8xy5 SUB Vx, Vy (R127). -/
  | subReg (x y : RegIdx)
  /-- 8xy6 SHR Vx (R128). -/
  | shr (x y : RegIdx)
  /-- 8xy7 SUBN Vx, Vy (R129). -/
  | subnReg (x y : RegIdx)
  /-- 8xyE SHL Vx (R130). -/
  | shl (x y : RegIdx)
  /-- 9xy0 SNE Vx, Vy (R107). -/
  | sneReg (x y : RegIdx)
  /-- Annn LD I, addr (R150). -/
  | ldI (nnn : Addr12)
  /-- Bnnn JP V0, addr (R108). -/
  | jpV0 (nnn : Addr12)
  /-- Cxkk RND Vx, byte (R131). -/
  | rnd (x : RegIdx) (kk : Byte)
  /-- Dxyn DRW Vx, Vy, nibble (R172). -/
  | drw (x y : RegIdx) (n : Nibble)
  /-- Ex9E SKP Vx (R191). -/
  | skp (x : RegIdx)
  /-- ExA1 SKNP Vx (R192). -/
  | sknp (x : RegIdx)
  /-- Fx07 LD Vx, DT (R193). -/
  | ldVxDT (x : RegIdx)
  /-- Fx0A LD Vx, K (R194). -/
  | ldVxK (x : RegIdx)
  /-- Fx15 LD DT, Vx (R195). -/
  | ldDTVx (x : RegIdx)
  /-- Fx18 LD ST, Vx (R196). -/
  | ldST (x : RegIdx)
  /-- Fx1E ADD I, Vx (R151). -/
  | addI (x : RegIdx)
  /-- Fx29 LD F, Vx (R152). -/
  | ldF (x : RegIdx)
  /-- Fx33 LD B, Vx (R153). -/
  | ldB (x : RegIdx)
  /-- Fx55 LD [I], Vx (R154). -/
  | ldMemVx (x : RegIdx)
  /-- Fx65 LD Vx, [I] (R155). -/
  | ldVxMem (x : RegIdx)
  deriving DecidableEq, Repr

end Sys2Proof
end

