-- ==== Sys2Proof/Decode.lean ====
section
/-! DEFINITION. The decoder and the encoder (30_encoding.md R74 to R81): the fields of the word, the dispatch by family and then by
a secondary discriminant, the encoder, and the opcode map's rows as masks and matches. -/

namespace Sys2Proof

/-! ### The fields of the word (R77) -/

/-- The opcode family `o = w[15:12]`. -/
def family (w : Word) : Nibble := w.extractLsb' 12 4
/-- The field `x = w[11:8]`. -/
def fieldX (w : Word) : RegIdx := w.extractLsb' 8 4
/-- The field `y = w[7:4]`. -/
def fieldY (w : Word) : RegIdx := w.extractLsb' 4 4
/-- The field `n = w[3:0]`. -/
def fieldN (w : Word) : Nibble := w.extractLsb' 0 4
/-- The field `kk = w[7:0]`. -/
def fieldKK (w : Word) : Byte := w.extractLsb' 0 8
/-- The field `nnn = w[11:0]`. -/
def fieldNNN (w : Word) : Addr12 := w.extractLsb' 0 12

/-! ### Byte order of the word (R53) -/

/-- The word whose byte at the lower address is `hi`: `hi` is bits 15:8 (R53, R72). -/
def wordOfBytes (hi lo : Byte) : Word := hi ++ lo
/-- The byte of `w` at the lower address, bits 15:8 (R53). -/
def highByte (w : Word) : Byte := w.extractLsb' 8 8
/-- The byte of `w` at the higher address, bits 7:0 (R53). -/
def lowByte (w : Word) : Byte := w.extractLsb' 0 8

/-! ### The decoder -/

/-- Why bytes are no instruction. -/
inductive DecodeReject where
  /-- The word matches no row of R80 (R81). A family-0 word is never this: it decodes to CLS, RET or SYS. -/
  | unknownInstruction (w : Word)
  /-- Fewer than the two bytes every instruction has (R76); a fetch never meets this, it reads two bytes. -/
  | truncated
  deriving DecidableEq, Repr

/-- Family 8: the low nibble selects the operation (R74, R80). -/
def decodeFamily8 (w : Word) : Except DecodeReject Instr :=
  match fieldN w with
  | 0x0#4 => .ok (.ldReg (fieldX w) (fieldY w))
  | 0x1#4 => .ok (.orReg (fieldX w) (fieldY w))
  | 0x2#4 => .ok (.andReg (fieldX w) (fieldY w))
  | 0x3#4 => .ok (.xorReg (fieldX w) (fieldY w))
  | 0x4#4 => .ok (.addReg (fieldX w) (fieldY w))
  | 0x5#4 => .ok (.subReg (fieldX w) (fieldY w))
  | 0x6#4 => .ok (.shr (fieldX w) (fieldY w))
  | 0x7#4 => .ok (.subnReg (fieldX w) (fieldY w))
  | 0xE#4 => .ok (.shl (fieldX w) (fieldY w))
  | _ => .error (.unknownInstruction w)

/-- Family F: the low byte selects the operation (R74, R80). -/
def decodeFamilyF (w : Word) : Except DecodeReject Instr :=
  match fieldKK w with
  | 0x07#8 => .ok (.ldVxDT (fieldX w))
  | 0x0A#8 => .ok (.ldVxK (fieldX w))
  | 0x15#8 => .ok (.ldDTVx (fieldX w))
  | 0x18#8 => .ok (.ldST (fieldX w))
  | 0x1E#8 => .ok (.addI (fieldX w))
  | 0x29#8 => .ok (.ldF (fieldX w))
  | 0x33#8 => .ok (.ldB (fieldX w))
  | 0x55#8 => .ok (.ldMemVx (fieldX w))
  | 0x65#8 => .ok (.ldVxMem (fieldX w))
  | _ => .error (.unknownInstruction w)

/-- The decoder (R74, R80): total on all words, and it reads only the word. -/
def decodeWord (w : Word) : Except DecodeReject Instr :=
  match family w with
  | 0x0#4 => if w = 0x00E0#16 then .ok .cls else if w = 0x00EE#16 then .ok .ret else .ok (.sys (fieldNNN w))
  | 0x1#4 => .ok (.jp (fieldNNN w))
  | 0x2#4 => .ok (.call (fieldNNN w))
  | 0x3#4 => .ok (.seImm (fieldX w) (fieldKK w))
  | 0x4#4 => .ok (.sneImm (fieldX w) (fieldKK w))
  | 0x5#4 => if fieldN w = 0#4 then .ok (.seReg (fieldX w) (fieldY w)) else .error (.unknownInstruction w)
  | 0x6#4 => .ok (.ldImm (fieldX w) (fieldKK w))
  | 0x7#4 => .ok (.addImm (fieldX w) (fieldKK w))
  | 0x8#4 => decodeFamily8 w
  | 0x9#4 => if fieldN w = 0#4 then .ok (.sneReg (fieldX w) (fieldY w)) else .error (.unknownInstruction w)
  | 0xA#4 => .ok (.ldI (fieldNNN w))
  | 0xB#4 => .ok (.jpV0 (fieldNNN w))
  | 0xC#4 => .ok (.rnd (fieldX w) (fieldKK w))
  | 0xD#4 => .ok (.drw (fieldX w) (fieldY w) (fieldN w))
  | 0xE#4 =>
    if fieldKK w = 0x9E#8 then .ok (.skp (fieldX w))
    else if fieldKK w = 0xA1#8 then .ok (.sknp (fieldX w))
    else .error (.unknownInstruction w)
  | 0xF#4 => decodeFamilyF w
  | _ => .error (.unknownInstruction w)

/-- The decoder on bytes, lowest address first: one instruction takes exactly two bytes (R76), big-endian (R53). -/
def decodeBytes (bytes : List Byte) : Except DecodeReject (Instr × List Byte) :=
  match bytes with
  | hi :: lo :: rest =>
    match decodeWord (wordOfBytes hi lo) with
    | .ok i => .ok (i, rest)
    | .error e => .error e
  | _ => .error .truncated

/-! ### The encoder -/

/-- A word of the form `o nnn` (R77). -/
def wordNNN (o : Nibble) (nnn : Addr12) : Word := o ++ nnn
/-- A word of the form `o x kk` (R77). -/
def wordXKK (o : Nibble) (x : RegIdx) (kk : Byte) : Word := o ++ x ++ kk
/-- A word of the form `o x y n` (R77). -/
def wordXYN (o : Nibble) (x y : RegIdx) (n : Nibble) : Word := o ++ x ++ y ++ n

/-- The word of an instruction, by the patterns of R80. -/
def encode (i : Instr) : Word :=
  match i with
  | .cls => 0x00E0#16
  | .ret => 0x00EE#16
  | .sys nnn => wordNNN 0x0#4 nnn
  | .jp nnn => wordNNN 0x1#4 nnn
  | .call nnn => wordNNN 0x2#4 nnn
  | .seImm x kk => wordXKK 0x3#4 x kk
  | .sneImm x kk => wordXKK 0x4#4 x kk
  | .seReg x y => wordXYN 0x5#4 x y 0x0#4
  | .ldImm x kk => wordXKK 0x6#4 x kk
  | .addImm x kk => wordXKK 0x7#4 x kk
  | .ldReg x y => wordXYN 0x8#4 x y 0x0#4
  | .orReg x y => wordXYN 0x8#4 x y 0x1#4
  | .andReg x y => wordXYN 0x8#4 x y 0x2#4
  | .xorReg x y => wordXYN 0x8#4 x y 0x3#4
  | .addReg x y => wordXYN 0x8#4 x y 0x4#4
  | .subReg x y => wordXYN 0x8#4 x y 0x5#4
  | .shr x y => wordXYN 0x8#4 x y 0x6#4
  | .subnReg x y => wordXYN 0x8#4 x y 0x7#4
  | .shl x y => wordXYN 0x8#4 x y 0xE#4
  | .sneReg x y => wordXYN 0x9#4 x y 0x0#4
  | .ldI nnn => wordNNN 0xA#4 nnn
  | .jpV0 nnn => wordNNN 0xB#4 nnn
  | .rnd x kk => wordXKK 0xC#4 x kk
  | .drw x y n => wordXYN 0xD#4 x y n
  | .skp x => wordXKK 0xE#4 x 0x9E#8
  | .sknp x => wordXKK 0xE#4 x 0xA1#8
  | .ldVxDT x => wordXKK 0xF#4 x 0x07#8
  | .ldVxK x => wordXKK 0xF#4 x 0x0A#8
  | .ldDTVx x => wordXKK 0xF#4 x 0x15#8
  | .ldST x => wordXKK 0xF#4 x 0x18#8
  | .addI x => wordXKK 0xF#4 x 0x1E#8
  | .ldF x => wordXKK 0xF#4 x 0x29#8
  | .ldB x => wordXKK 0xF#4 x 0x33#8
  | .ldMemVx x => wordXKK 0xF#4 x 0x55#8
  | .ldVxMem x => wordXKK 0xF#4 x 0x65#8

/-- The two bytes of an instruction as they lie in memory, lowest address first (R53, R76). -/
def encodeBytes (i : Instr) : List Byte := [highByte (encode i), lowByte (encode i)]

/-! ### The opcode map as rows (R80) -/

/-- A row of R80: it takes the words with `(w & mask) = match`, less the words it excludes. -/
structure OpcodeRow where
  pattern : String
  matchBits : Word
  mask : Word
  excludes : List Word
  deriving DecidableEq, Repr

/-- The row of R80 an instruction belongs to. -/
def opcodeRow (i : Instr) : OpcodeRow :=
  match i with
  | .cls => ⟨"00E0", 0x00E0, 0xFFFF, []⟩
  | .ret => ⟨"00EE", 0x00EE, 0xFFFF, []⟩
  | .sys _ => ⟨"0nnn", 0x0000, 0xF000, [0x00E0, 0x00EE]⟩
  | .jp _ => ⟨"1nnn", 0x1000, 0xF000, []⟩
  | .call _ => ⟨"2nnn", 0x2000, 0xF000, []⟩
  | .seImm _ _ => ⟨"3xkk", 0x3000, 0xF000, []⟩
  | .sneImm _ _ => ⟨"4xkk", 0x4000, 0xF000, []⟩
  | .seReg _ _ => ⟨"5xy0", 0x5000, 0xF00F, []⟩
  | .ldImm _ _ => ⟨"6xkk", 0x6000, 0xF000, []⟩
  | .addImm _ _ => ⟨"7xkk", 0x7000, 0xF000, []⟩
  | .ldReg _ _ => ⟨"8xy0", 0x8000, 0xF00F, []⟩
  | .orReg _ _ => ⟨"8xy1", 0x8001, 0xF00F, []⟩
  | .andReg _ _ => ⟨"8xy2", 0x8002, 0xF00F, []⟩
  | .xorReg _ _ => ⟨"8xy3", 0x8003, 0xF00F, []⟩
  | .addReg _ _ => ⟨"8xy4", 0x8004, 0xF00F, []⟩
  | .subReg _ _ => ⟨"8xy5", 0x8005, 0xF00F, []⟩
  | .shr _ _ => ⟨"8xy6", 0x8006, 0xF00F, []⟩
  | .subnReg _ _ => ⟨"8xy7", 0x8007, 0xF00F, []⟩
  | .shl _ _ => ⟨"8xyE", 0x800E, 0xF00F, []⟩
  | .sneReg _ _ => ⟨"9xy0", 0x9000, 0xF00F, []⟩
  | .ldI _ => ⟨"Annn", 0xA000, 0xF000, []⟩
  | .jpV0 _ => ⟨"Bnnn", 0xB000, 0xF000, []⟩
  | .rnd _ _ => ⟨"Cxkk", 0xC000, 0xF000, []⟩
  | .drw _ _ _ => ⟨"Dxyn", 0xD000, 0xF000, []⟩
  | .skp _ => ⟨"Ex9E", 0xE09E, 0xF0FF, []⟩
  | .sknp _ => ⟨"ExA1", 0xE0A1, 0xF0FF, []⟩
  | .ldVxDT _ => ⟨"Fx07", 0xF007, 0xF0FF, []⟩
  | .ldVxK _ => ⟨"Fx0A", 0xF00A, 0xF0FF, []⟩
  | .ldDTVx _ => ⟨"Fx15", 0xF015, 0xF0FF, []⟩
  | .ldST _ => ⟨"Fx18", 0xF018, 0xF0FF, []⟩
  | .addI _ => ⟨"Fx1E", 0xF01E, 0xF0FF, []⟩
  | .ldF _ => ⟨"Fx29", 0xF029, 0xF0FF, []⟩
  | .ldB _ => ⟨"Fx33", 0xF033, 0xF0FF, []⟩
  | .ldMemVx _ => ⟨"Fx55", 0xF055, 0xF0FF, []⟩
  | .ldVxMem _ => ⟨"Fx65", 0xF065, 0xF0FF, []⟩

/-- The word belongs to the row (R80). -/
def rowTakes (r : OpcodeRow) (w : Word) : Bool := (w &&& r.mask == r.matchBits) && !(r.excludes.contains w)

/-- The 35 rows of R80, in the table's order (an operand does not change an instruction's row). -/
def opcodeMap : List OpcodeRow :=
  [opcodeRow .cls, opcodeRow .ret, opcodeRow (.sys 0), opcodeRow (.jp 0), opcodeRow (.call 0), opcodeRow (.seImm 0 0),
   opcodeRow (.sneImm 0 0), opcodeRow (.seReg 0 0), opcodeRow (.ldImm 0 0), opcodeRow (.addImm 0 0), opcodeRow (.ldReg 0 0)] ++
  [opcodeRow (.orReg 0 0), opcodeRow (.andReg 0 0), opcodeRow (.xorReg 0 0), opcodeRow (.addReg 0 0), opcodeRow (.subReg 0 0),
   opcodeRow (.shr 0 0), opcodeRow (.subnReg 0 0), opcodeRow (.shl 0 0), opcodeRow (.sneReg 0 0), opcodeRow (.ldI 0)] ++
  [opcodeRow (.jpV0 0), opcodeRow (.rnd 0 0), opcodeRow (.drw 0 0 0), opcodeRow (.skp 0), opcodeRow (.sknp 0),
   opcodeRow (.ldVxDT 0), opcodeRow (.ldVxK 0), opcodeRow (.ldDTVx 0), opcodeRow (.ldST 0), opcodeRow (.addI 0)] ++
  [opcodeRow (.ldF 0), opcodeRow (.ldB 0), opcodeRow (.ldMemVx 0), opcodeRow (.ldVxMem 0)]

/-! ### The host's view of the decoder -/

/-- The instruction the decoder reads from an instruction whose bits are `w`, numbered as spec/opcode_table.json numbers them: the
bits at and above `nbits` are zero, the word is laid out as memory holds it (R53) and given to the decoder. -/
def decodeTableWord (nbits w : Nat) : Option Instr :=
  let word : Word := BitVec.ofNat 16 (w % 2 ^ nbits)
  match decodeBytes [highByte word, lowByte word] with
  | .ok (i, _) => some i
  | .error _ => none

end Sys2Proof
end

