-- ==== Sys2Proof/Config.lean ====
section
/-! DEFINITION. What is fixed for the machine or free: the fixed layout values of 00_scope.md R6, what R6 asks of the parameters,
and the free value `rnd` (30_encoding.md R82). The parameters' values stand in Machine/Params.lean. -/

namespace Sys2Proof

/-- `PROGRAM_BASE`: the reset value of `PC` and the load offset of a program image (R6, R51, R255). -/
abbrev Config.programBase : Word := 0x200#16

/-- `FONT_GLYPH_BYTES`: the bytes of one font glyph (R6, R33); `FONT_BASE` is 0. -/
abbrev Config.glyphBytes : Nat := 5

/-- What R6 requires of a choice of `MEM_SIZE`, `STACK_DEPTH` and `FONT`: `4096 <= MEM_SIZE <= 65536`, `STACK_DEPTH >= 1` and
80 font bytes. -/
def Config.paramsValid (memSize stackDepth : Nat) (font : List Byte) : Bool :=
  decide (4096 ≤ memSize) && decide (memSize ≤ 65536) && decide (1 ≤ stackDepth) && decide (font.length = 80)

/-- FREE VALUE (DESIGN CHOICE of form, log 2; safe). The `k`-th random byte a run draws: R82 takes `rnd` as a free input of a step
under no law, so the constant has no body and nothing can be proved of a value of it. Only Cxkk reads it (R131). -/
opaque Config.randomByte : Nat → Byte

end Sys2Proof
end

