-- ==== Sys2Proof/Machine/State.lean ====
section
/-! DEFINITION. The state of the core (10_state.md R20), its reset (R34, 70_reset_and_hazards.md R250), and the reasons a step can stop. -/

namespace Sys2Proof.Machine

/-- The fault kinds of 60_exceptions.md R210. Each is TAKEN by the machine (Ops.lean, `State.takeFault`): it ends in a next state. -/
inductive FaultKind where
  /-- Code 1: a family-0 word other than 0x00E0 and 0x00EE. -/
  | unsupportedInstruction
  /-- Code 2: a word matching no row of R80. -/
  | unknownInstruction
  /-- Code 3: 00EE with an empty stack. -/
  | stackUnderflow
  /-- Code 4: 2nnn with a full stack. -/
  | stackOverflow
  /-- Code 5: an access at an address `>= MEM_SIZE`. -/
  | memoryBounds
  /-- Code 6: Dxyn with a row `>= 32`. -/
  | drawRowOutOfRange
  /-- Code 7: Ex9E or ExA1 with `V[x] > 15`. -/
  | keyIndexOutOfRange
  deriving DecidableEq, Repr

/-- The record of a fault: `Faulted(kind, pc0, word, info)` (R31, R212). `word` is none when the fetch faulted; `info` is an
unreduced address, a row or a register's value, by kind (R210). -/
structure FaultRecord where
  kind : FaultKind
  pc0  : Word
  word : Option Word
  info : Option Nat
  deriving DecidableEq, Repr

/-- `STATUS` (R31). -/
inductive Status where
  | running
  | faulted (record : FaultRecord)
  deriving DecidableEq, Repr

/-- `draw(x, y, n)` of a step's result (30_encoding.md R83, 43_display.md R174). -/
structure DrawReport where
  x : Byte
  y : Byte
  n : Nibble
  deriving DecidableEq, Repr

/-- The result record of a successful step (R83); every field is empty at the start of a step. -/
structure Report where
  clear : Bool := false
  draw  : Option DrawReport := none
  wait  : Option RegIdx := none
  deriving DecidableEq, Repr

/-- `MEM`: the bytes that differ from what reset leaves there, by address, in one canonical form (Memory.lean). -/
abbrev Memory := List Host.Cell

/-- `FB`: 32 rows of 64 one-bit pixels, row-major; bit `px` of row `py` is the pixel at linear index `py*64 + px` (R30). -/
abbrev Framebuffer := Vector (BitVec 64) 32

/-- The state of the core (R20). The last two fields are not elements of R20: `report` holds what the last step returned, `draws`
counts random bytes (logs 2, 3). -/
structure State where
  /-- `V0`..`VF` (R21). -/
  v      : Vector Byte 16
  /-- `I` (R24). -/
  i      : Word
  /-- `PC` (R25). -/
  pc     : Word
  /-- `STACK`, its top first (R26, log 6). -/
  stack  : List Word
  /-- `DT` (R27). -/
  dt     : Byte
  /-- `KEYS`, bit `k` is key `k` (R28). -/
  keys   : Word
  /-- `MEM` (R29). -/
  mem    : Memory
  /-- `FB` (R30). -/
  fb     : Framebuffer
  /-- `STATUS` (R31). -/
  status : Status
  /-- The result record the last step returned; none where it returned a fault or no step was made (R83, R212, log 3). -/
  report : Option Report
  /-- THE MODEL'S OWN: how many random bytes the run has drawn (R82, log 2). -/
  draws  : Nat
  deriving DecidableEq, Repr

/-- Why the machine stops with no next state: never. Every fault of the spec is a NEXT state with `STATUS` written (R212), and a step
in the Faulted state is one that changes nothing (R71), so this type has no constructor. -/
inductive Fault where
  deriving DecidableEq, Repr

/-- Why an instruction has no meaning. -/
inductive Refusal where
  /-- Raised by an arm of `exec` that gives its instruction no meaning yet: no arm does. Safe. -/
  | notModelled (mnemonic : String)
  deriving DecidableEq, Repr

/-- The state after `initialize()` (R34, R250). Memory lists nothing: an unlisted byte reads FONT or 0 (Memory.lean).
`report` and `draws` are the model's (logs 2, 3). -/
def State.reset : State where
  v      := Vector.replicate 16 0#8
  i      := 0#16
  pc     := Config.programBase
  stack  := []
  dt     := 0#8
  keys   := 0#16
  mem    := []
  fb     := Vector.replicate 32 0#64
  status := .running
  report := none
  draws  := 0

end Sys2Proof.Machine
end

