-- ==== Sys2Proof/Machine/Framebuffer.lean ====
section
/-! DEFINITION. `FB` (43_display.md R170): the pixel at a column and row, and the drawing of a sprite (R172). -/

namespace Sys2Proof.Machine

/-- Row `py`; a row that is not on the screen has no lit pixel. -/
def Framebuffer.row (fb : Framebuffer) (py : Nat) : BitVec 64 := if h : py < 32 then fb[py] else 0#64

/-- `FB[px, py]`, true for a lit pixel (R170). -/
def Framebuffer.pixel (fb : Framebuffer) (px py : Nat) : Bool := (fb.row py).getLsbD px

/-- `FB[px, py] <- b`. -/
def Framebuffer.setPixel (fb : Framebuffer) (px py : Nat) (b : Bool) : Framebuffer :=
  fb.setIfInBounds py (if b then fb.row py ||| BitVec.twoPow 64 px else fb.row py &&& ~~~ BitVec.twoPow 64 px)

/-- Every pixel 0 (R34, R171). -/
def Framebuffer.blank : Framebuffer := Vector.replicate 32 0#64

/-- The column bit `j` of a sprite row goes to: `(xs + 7 - j) mod 64`, columns wrap (R170, R172, C14). -/
def spriteColumn (xs j : Nat) : Nat := (xs + 7 - j) % 64

/-- One bit of a sprite row: XOR it into its pixel and let `VF` be its collision (R172, the loop's body). The pair is `FB` and `VF`. -/
def drawBit (row : Byte) (xs py : Nat) (acc : Framebuffer × Byte) (j : Nat) : Framebuffer × Byte :=
  let bit := row.getLsbD j
  let old := acc.1.pixel (spriteColumn xs j) py
  (acc.1.setPixel (spriteColumn xs j) py (xor old bit), if bit && old then 1#8 else 0#8)

/-- The eight bits of one sprite row, bit 7 first (R172, D9). -/
def drawRow (row : Byte) (xs py : Nat) (acc : Framebuffer × Byte) : Framebuffer × Byte :=
  [7, 6, 5, 4, 3, 2, 1, 0].foldl (drawBit row xs py) acc

/-- The sprite of `n` rows whose row `i` is the byte `rowAt i`, top row first, at column `xs` and row `ys` (R172). -/
def drawSprite (rowAt : Nat → Byte) (xs ys n : Nat) (acc : Framebuffer × Byte) : Framebuffer × Byte :=
  (List.range n).foldl (fun acc i => drawRow (rowAt i) xs (ys + i) acc) acc

/-- The first row `>= 32` among `ys .. ys+n-1`; none when all are on the screen or `n` is 0 (R172, D6). -/
def firstBadRow (ys n : Nat) : Option Nat :=
  if 1 ≤ n ∧ 32 ≤ ys + n - 1 then some (max ys 32) else none

end Sys2Proof.Machine
end

