-- ==== Sys2Proof/Machine/Params.lean ====
section
/-! DEFINITION. The values of the parameters of 00_scope.md R6: the spec's own defaults (logs 1, 4, 5). -/

namespace Sys2Proof.Machine

/-- `MEM_SIZE`, the memory size in bytes: the spec's default 4096 (R6, R29, D2; log 4). -/
def memSize : Nat := 4096

/-- `STACK_DEPTH`, the call stack's capacity: the spec's default 16 (R6, R26, D4; log 5). -/
def stackDepth : Nat := 16

/-- `FONT`, the 80 font bytes, glyph 0 first and the top row of a glyph first: the default table of 10_state.md R33. Glyph A is the
source's; the other fifteen are the spec's default from general knowledge (D16; log 1). -/
def font : List Byte :=
  [0xF0, 0x90, 0x90, 0x90, 0xF0,  0x20, 0x60, 0x20, 0x20, 0x70,  0xF0, 0x10, 0xF0, 0x80, 0xF0,  0xF0, 0x10, 0xF0, 0x10, 0xF0] ++
  [0x90, 0x90, 0xF0, 0x10, 0x10,  0xF0, 0x80, 0xF0, 0x10, 0xF0,  0xF0, 0x80, 0xF0, 0x90, 0xF0,  0xF0, 0x10, 0x20, 0x40, 0x40] ++
  [0xF0, 0x90, 0xF0, 0x90, 0xF0,  0xF0, 0x90, 0xF0, 0x10, 0xF0,  0xF0, 0x90, 0xF0, 0x90, 0x90,  0xE0, 0x90, 0xE0, 0x90, 0xE0] ++
  [0xF0, 0x80, 0x80, 0x80, 0xF0,  0xE0, 0x90, 0x90, 0x90, 0xE0,  0xF0, 0x80, 0xF0, 0x80, 0xF0,  0xF0, 0x80, 0xF0, 0x80, 0x80]

end Sys2Proof.Machine
end

