-- ==== Sys2Proof/Machine/Memory.lean ====
section
/-! DEFINITION. `MEM` (20_memory.md): reading and writing one byte, the canonical form, and the bounds check every access makes. -/

namespace Sys2Proof.Machine

/-- What an unlisted address reads as: the byte `initialize()` leaves there, FONT at 0x000..0x04F and 0 elsewhere (R33, R34). -/
def Memory.background (a : Nat) : Byte := font.getD a 0#8

/-- The byte at address `a` (R57: memory holds what was last written). -/
def Memory.read : Memory → Nat → Byte
  | [], a => Memory.background a
  | (b, u) :: rest, a => if a = b then u else Memory.read rest a

/-- `m` with the cell put before the first one of a higher address. -/
def Memory.insertCell (c : Host.Cell) : Memory → Memory
  | [] => [c]
  | d :: rest => if c.1 < d.1 then c :: d :: rest else d :: Memory.insertCell c rest

/-- Memory with the byte at address `a` written (R57), in canonical form: a byte equal to what an unlisted address reads as is not listed. -/
def Memory.write (m : Memory) (a : Nat) (v : Byte) : Memory :=
  let others := m.filter (fun c => c.1 != a)
  if v = Memory.background a then others else Memory.insertCell (a, v) others

/-- The bytes written at `a`, `a+1`, … in order (R156: each access is one byte). -/
def Memory.writeBytes (m : Memory) (a : Nat) : List Byte → Memory
  | [] => m
  | v :: vs => Memory.writeBytes (m.write a v) (a + 1) vs

/-- Addresses strictly rise. -/
def Memory.rising : Memory → Bool
  | [] => true
  | (a, _) :: rest => rest.all (fun c => decide (a < c.1)) && Memory.rising rest

/-- The canonical form: addresses strictly rising, no entry equal to what an unlisted address reads as. -/
def Memory.wf (m : Memory) : Bool := m.rising && m.all (fun c => c.2 != Memory.background c.1)

/-- Every listed address exists: it is below `MEM_SIZE` (R29, R50). -/
def Memory.inRange (m : Memory) : Bool := m.all (fun c => decide (c.1 < memSize))

/-- The smallest address `>= MEM_SIZE` among `base .. base+len-1`, on unreduced addresses; none when every one exists or `len` is 0
(R10, R55). -/
def firstOutOfRange (base len : Nat) : Option Nat :=
  if 1 ≤ len ∧ memSize ≤ base + len - 1 then some (max base memSize) else none

end Sys2Proof.Machine
end

