-- ==== Sys2Proof/Machine/Ops.lean ====
section
/-! DEFINITION. The named operations on the state: register access, the fetch and the `PC` advance (30_encoding.md R72, R73), and taking a
fault (60_exceptions.md R212), with the one way out of it. -/

namespace Sys2Proof.Machine

/-- What one step of this machine answers. -/
abbrev StepOutcome := Host.Outcome State Fault Refusal

/-! ### General registers (R21) -/

/-- `VF`, the flag register (R22). -/
def flagReg : RegIdx := 0xF#4

/-- `V[r]`. -/
def State.reg (s : State) (r : RegIdx) : Byte := s.v[r.toNat]'r.isLt

/-- `V[r] <- b`. No register is hardwired (R21). -/
def State.setReg (s : State) (r : RegIdx) (b : Byte) : State := { s with v := s.v.set r.toNat b r.isLt }

/-- `V[r] <- b`, then `V[F] <- flag`: the flag write comes last, so with `r = 0xF` the flag survives (R12, R22, D7). -/
def State.setRegFlag (s : State) (r : RegIdx) (b flag : Byte) : State := (s.setReg r b).setReg flagReg flag

/-! ### Fetch and the start of an instruction -/

/-- The fetch at `PC` (R72): the big-endian word, or the first address of the fetch that does not exist. No alignment check (R54). -/
def State.fetch (s : State) : Except Nat Word :=
  match firstOutOfRange s.pc.toNat 2 with
  | some a => .error a
  | none => .ok (wordOfBytes (s.mem.read s.pc.toNat) (s.mem.read (s.pc.toNat + 1)))

/-- The state an instruction's rule starts from: `PC` is `(pc0 + 2) mod 2^16` and the result record is empty (R70, R73, R83). -/
def State.advance (s : State) : State := { s with pc := s.pc + 2#16, report := some {} }

/-- A skip adds a further 2 to `PC` (R73, R79). -/
def State.skipIf (s : State) (c : Bool) : State := if c then { s with pc := s.pc + 2#16 } else s

/-- `report …`: set the step's result record (R13, R83). -/
def State.reporting (s : State) (r : Report) : State := { s with report := some r }

/-- The step's random byte `rnd` and the state that has drawn it (R82; log 2). -/
def State.drawByte (s : State) : Byte × State := (Config.randomByte s.draws, { s with draws := s.draws + 1 })

/-! ### Faults -/

/-- The numeric code of a fault kind (R210). -/
def FaultKind.code (k : FaultKind) : Nat :=
  match k with
  | .unsupportedInstruction => 1
  | .unknownInstruction => 2
  | .stackUnderflow => 3
  | .stackOverflow => 4
  | .memoryBounds => 5
  | .drawRowOutOfRange => 6
  | .keyIndexOutOfRange => 7

/-- TAKING A FAULT (R11, R212, R213), from the state before the step: no write of the step takes effect, so `PC` is `pc0`; `STATUS` gets
the record; the step returns no result record. -/
def State.takeFault (s : State) (kind : FaultKind) (word : Option Word) (info : Option Nat) : State :=
  { s with status := .faulted ⟨kind, s.pc, word, info⟩, report := none }

/-- `raise Fault(kind, info)` in instruction `i` executing at `s`: the record's word is the fetched word, which is `encode i` (R212). -/
def State.raise (s : State) (i : Instr) (kind : FaultKind) (info : Option Nat) : StepOutcome :=
  .next (s.takeFault kind (some (encode i)) info)

/-- The only way out of the Faulted state (R216): `initialize()`, which resets the whole state block (R250, R252). The model's draw
counter goes on, so that no random byte of before is promised again (R82, log 2). -/
def State.initializeCore (s : State) : State := { State.reset with draws := s.draws }

end Sys2Proof.Machine
end

