-- ==== Sys2Proof/Machine/Operands.lean ====
section
/-! DEFINITION. The operand forms (30_encoding.md R78, 42_index_memory.md R156): addresses from fields and registers, the digits and
register blocks that memory transfers move, and the key a key test reads. -/

namespace Sys2Proof.Machine

/-- `zext_16(nnn)` (R78). -/
def addrOperand (nnn : Addr12) : Word := nnn.setWidth 16

/-- The target of Bnnn: `zext_16(V[0]) + zext_16(nnn)`, which never exceeds 0x10FE (R108). -/
def jumpTarget (v0 : Byte) (nnn : Addr12) : Word := v0.setWidth 16 + addrOperand nnn

/-- `I` plus a register, modulo 2^16 (R24, R151). -/
def indexPlus (i : Word) (a : Byte) : Word := i + a.setWidth 16

/-- The glyph address `5 * a`, of the whole byte (R152). -/
def glyphAddr (a : Byte) : Word := BitVec.ofNat 16 (Config.glyphBytes * a.toNat)

/-- How many registers `V0`..`Vx` are (R154, R155). -/
def blockLength (x : RegIdx) : Nat := x.toNat + 1

/-- `I` after a block transfer: `(base + x + 1) mod 2^16` (R154, R155). -/
def indexAfterBlock (i : Word) (x : RegIdx) : Word := BitVec.ofNat 16 (i.toNat + blockLength x)

/-- The hundreds, tens and units of a byte (R153). -/
def bcdDigits (a : Byte) : List Byte :=
  [BitVec.ofNat 8 (a.toNat / 100), BitVec.ofNat 8 (a.toNat / 10 % 10), BitVec.ofNat 8 (a.toNat % 10)]

/-- The bytes Fx55 stores, `V[0]`..`V[x]` (R154). -/
def State.block (s : State) (x : RegIdx) : List Byte := s.v.toList.take (blockLength x)

/-- The registers after `V[k] <- MEM[base + k]` for `k` in `0 .. x` (R155). -/
def loadBlock (v : Vector Byte 16) (m : Memory) (base : Nat) (x : RegIdx) : Vector Byte 16 :=
  (List.range (blockLength x)).foldl (fun v k => v.setIfInBounds k (m.read (base + k))) v

/-- `KEYS[k]`: key `k` is held (R190). -/
def State.keyHeld (s : State) (k : Nat) : Bool := s.keys.getLsbD k

/-- The key number of a key test when it is no key: `V[x] > 15` (R190, D11). -/
def badKey (k : Byte) : Option Nat := if k.toNat > 15 then some k.toNat else none

end Sys2Proof.Machine
end

