-- ==== Sys2Proof/Machine/Alu.lean ====
section
/-! DEFINITION. Register loads, arithmetic, logic and random (41_alu.md R120 to R131). Operands are those of the state before the step
(R12); arithmetic wraps modulo 256 (R132). -/

namespace Sys2Proof.Machine

/-- 6xkk LD Vx, byte (R120). -/
def execLdImm (x : RegIdx) (kk : Byte) (s : State) : StepOutcome := .next (s.advance.setReg x kk)

/-- 7xkk ADD Vx, byte (R121): no flag. -/
def execAddImm (x : RegIdx) (kk : Byte) (s : State) : StepOutcome := .next (s.advance.setReg x (s.reg x + kk))

/-- 8xy0 LD Vx, Vy (R122). -/
def execLdReg (x y : RegIdx) (s : State) : StepOutcome := .next (s.advance.setReg x (s.reg y))

/-- 8xy1 OR Vx, Vy (R123): no flag (D28). -/
def execOrReg (x y : RegIdx) (s : State) : StepOutcome := .next (s.advance.setReg x (s.reg x ||| s.reg y))

/-- 8xy2 AND Vx, Vy (R124): no flag (D28). -/
def execAndReg (x y : RegIdx) (s : State) : StepOutcome := .next (s.advance.setReg x (s.reg x &&& s.reg y))

/-- 8xy3 XOR Vx, Vy (R125): no flag (D28). -/
def execXorReg (x y : RegIdx) (s : State) : StepOutcome := .next (s.advance.setReg x (s.reg x ^^^ s.reg y))

/-- 8xy4 ADD Vx, Vy (R126): `VF` is the carry. -/
def execAddReg (x y : RegIdx) (s : State) : StepOutcome :=
  .next (s.advance.setRegFlag x (s.reg x + s.reg y) (carryFlag (s.reg x) (s.reg y)))

/-- 8xy5 SUB Vx, Vy (R127): `VF` is 1 exactly when `Vx > Vy`. -/
def execSubReg (x y : RegIdx) (s : State) : StepOutcome :=
  .next (s.advance.setRegFlag x (s.reg x - s.reg y) (notBorrowFlag (s.reg x) (s.reg y)))

/-- 8xy6 SHR Vx (R128): `V[y]` is not read. -/
def execShr (x _y : RegIdx) (s : State) : StepOutcome :=
  .next (s.advance.setRegFlag x (s.reg x >>> 1) (shiftRightFlag (s.reg x)))

/-- 8xy7 SUBN Vx, Vy (R129): `VF` is 1 exactly when `Vy > Vx`. -/
def execSubnReg (x y : RegIdx) (s : State) : StepOutcome :=
  .next (s.advance.setRegFlag x (s.reg y - s.reg x) (notBorrowFlag (s.reg y) (s.reg x)))

/-- 8xyE SHL Vx (R130): `V[y]` is not read. -/
def execShl (x _y : RegIdx) (s : State) : StepOutcome :=
  .next (s.advance.setRegFlag x (s.reg x <<< 1) (shiftLeftFlag (s.reg x)))

/-- Cxkk RND Vx, byte (R131): `rnd & kk`, `rnd` the step's free random byte (R82; log 2). -/
def execRnd (x : RegIdx) (kk : Byte) (s : State) : StepOutcome :=
  let drawn := s.advance.drawByte
  .next (drawn.2.setReg x (drawn.1 &&& kk))

end Sys2Proof.Machine
end

