-- ==== Sys2Proof/Machine/Control.lean ====
section
/-! DEFINITION. Control transfer (40_control.md R100 to R108). Each meaning is given the state before the step: `s.advance` has `PC = pc0 + 2`. -/

namespace Sys2Proof.Machine

/-- 00EE RET (R100): pop `STACK` to `PC`; `StackUnderflow` when it is empty. -/
def execRet (s : State) : StepOutcome :=
  match s.stack with
  | [] => s.raise .ret .stackUnderflow none
  | top :: rest => .next { s.advance with pc := top, stack := rest }

/-- 0nnn SYS (R101): always raises `UnsupportedInstruction`, the step writes nothing else. -/
def execSys (nnn : Addr12) (s : State) : StepOutcome := s.raise (.sys nnn) .unsupportedInstruction none

/-- 1nnn JP addr (R102). -/
def execJp (nnn : Addr12) (s : State) : StepOutcome := .next { s.advance with pc := addrOperand nnn }

/-- 2nnn CALL addr (R103): push the post-increment `PC`; `StackOverflow` when the stack is full. -/
def execCall (nnn : Addr12) (s : State) : StepOutcome :=
  if stackDepth ≤ s.stack.length then s.raise (.call nnn) .stackOverflow none
  else .next { s.advance with pc := addrOperand nnn, stack := s.advance.pc :: s.stack }

/-- 3xkk SE Vx, byte (R104). -/
def execSeImm (x : RegIdx) (kk : Byte) (s : State) : StepOutcome := .next (s.advance.skipIf (s.reg x == kk))

/-- 4xkk SNE Vx, byte (R105). -/
def execSneImm (x : RegIdx) (kk : Byte) (s : State) : StepOutcome := .next (s.advance.skipIf (s.reg x != kk))

/-- 5xy0 SE Vx, Vy (R106). -/
def execSeReg (x y : RegIdx) (s : State) : StepOutcome := .next (s.advance.skipIf (s.reg x == s.reg y))

/-- 9xy0 SNE Vx, Vy (R107). -/
def execSneReg (x y : RegIdx) (s : State) : StepOutcome := .next (s.advance.skipIf (s.reg x != s.reg y))

/-- Bnnn JP V0, addr (R108). -/
def execJpV0 (nnn : Addr12) (s : State) : StepOutcome := .next { s.advance with pc := jumpTarget (s.reg 0#4) nnn }

end Sys2Proof.Machine
end

