-- ==== Sys2Proof/Machine/Display.lean ====
section
/-! DEFINITION. Clear and draw (43_display.md R171, R172). -/

namespace Sys2Proof.Machine

/-- 00E0 CLS (R171): every pixel 0, and `clear` reported. -/
def execCls (s : State) : StepOutcome := .next ({ s.advance with fb := Framebuffer.blank }.reporting { clear := true })

/-- Dxyn DRW Vx, Vy, nibble (R172): coordinates and `I` are those before the step (D7); `MemoryBounds` is checked before
`DrawRowOutOfRange` (R214), both before any write. With `n = 0` the drawing has no bit, and `VF` gets the value it had (D8). -/
def execDrw (x y : RegIdx) (n : Nibble) (s : State) : StepOutcome :=
  match firstOutOfRange s.i.toNat n.toNat with
  | some a => s.raise (.drw x y n) .memoryBounds (some a)
  | none =>
    match firstBadRow (s.reg y).toNat n.toNat with
    | some r => s.raise (.drw x y n) .drawRowOutOfRange (some r)
    | none =>
      let drawn := drawSprite (fun k => s.mem.read (s.i.toNat + k)) (s.reg x).toNat (s.reg y).toNat n.toNat (s.fb, s.reg flagReg)
      .next (({ s.advance with fb := drawn.1 }.setReg flagReg drawn.2).reporting { draw := some ⟨s.reg x, s.reg y, n⟩ })

end Sys2Proof.Machine
end

