-- ==== Sys2Proof/Machine/Index.lean ====
section
/-! DEFINITION. The index register and memory transfers (42_index_memory.md R150 to R155). Every access is checked before any write (R55). -/

namespace Sys2Proof.Machine

/-- Annn LD I, addr (R150). -/
def execLdI (nnn : Addr12) (s : State) : StepOutcome := .next { s.advance with i := addrOperand nnn }

/-- Fx1E ADD I, Vx (R151): no flag (D28), no reduction to 12 bits (C7). -/
def execAddI (x : RegIdx) (s : State) : StepOutcome := .next { s.advance with i := indexPlus s.i (s.reg x) }

/-- Fx29 LD F, Vx (R152). -/
def execLdF (x : RegIdx) (s : State) : StepOutcome := .next { s.advance with i := glyphAddr (s.reg x) }

/-- Fx33 LD B, Vx (R153): the decimal digits at `I`, `I+1`, `I+2`; `I` is unchanged. -/
def execLdB (x : RegIdx) (s : State) : StepOutcome :=
  match firstOutOfRange s.i.toNat 3 with
  | some a => s.raise (.ldB x) .memoryBounds (some a)
  | none => .next { s.advance with mem := s.mem.writeBytes s.i.toNat (bcdDigits (s.reg x)) }

/-- Fx55 LD [I], Vx (R154): store `V0`..`Vx` from `I` on, then `I <- I + x + 1`. -/
def execLdMemVx (x : RegIdx) (s : State) : StepOutcome :=
  match firstOutOfRange s.i.toNat (blockLength x) with
  | some a => s.raise (.ldMemVx x) .memoryBounds (some a)
  | none => .next { s.advance with mem := s.mem.writeBytes s.i.toNat (s.block x), i := indexAfterBlock s.i x }

/-- Fx65 LD Vx, [I] (R155): load `V0`..`Vx` from `I` on, then `I <- I + x + 1`. -/
def execLdVxMem (x : RegIdx) (s : State) : StepOutcome :=
  match firstOutOfRange s.i.toNat (blockLength x) with
  | some a => s.raise (.ldVxMem x) .memoryBounds (some a)
  | none => .next { s.advance with v := loadBlock s.v s.mem s.i.toNat x, i := indexAfterBlock s.i x }

end Sys2Proof.Machine
end

