-- ==== Sys2Proof/Machine/Keys.lean ====
section
/-! DEFINITION. Key tests, the delay timer and the key wait (44_keys_timers.md R190 to R196). -/

namespace Sys2Proof.Machine

/-- Ex9E SKP Vx (R191): skip if the key is held; `KeyIndexOutOfRange` when `V[x] > 15`. -/
def execSkp (x : RegIdx) (s : State) : StepOutcome :=
  match badKey (s.reg x) with
  | some k => s.raise (.skp x) .keyIndexOutOfRange (some k)
  | none => .next (s.advance.skipIf (s.keyHeld (s.reg x).toNat))

/-- ExA1 SKNP Vx (R192): skip if the key is not held; `KeyIndexOutOfRange` when `V[x] > 15`. -/
def execSknp (x : RegIdx) (s : State) : StepOutcome :=
  match badKey (s.reg x) with
  | some k => s.raise (.sknp x) .keyIndexOutOfRange (some k)
  | none => .next (s.advance.skipIf (!s.keyHeld (s.reg x).toNat))

/-- Fx07 LD Vx, DT (R193). -/
def execLdVxDT (x : RegIdx) (s : State) : StepOutcome := .next (s.advance.setReg x s.dt)

/-- Fx0A LD Vx, K (R194): report `wait(x)`; nothing else is written but the `PC` advance (C3). The host fills `V[x]` (R224). -/
def execLdVxK (x : RegIdx) (s : State) : StepOutcome := .next (s.advance.reporting { wait := some x })

/-- Fx15 LD DT, Vx (R195). -/
def execLdDTVx (x : RegIdx) (s : State) : StepOutcome := .next { s.advance with dt := s.reg x }

/-- Fx18 LD ST, Vx (R196): a no-op; `V[x]` is not read and there is no sound timer (D27). -/
def execLdST (_x : RegIdx) (s : State) : StepOutcome := .next s.advance

end Sys2Proof.Machine
end

