-- ==== Sys2Proof/Machine/Step.lean ====
section
/-! DEFINITION. One step: fetch, decode, execute (30_encoding.md R70), and the placing of an instruction where the next step fetches. -/

namespace Sys2Proof.Machine

/-- `step(rnd)` (R70), the faults in the order of 60_exceptions.md R214: already faulted (R71: no change), fetch, decode, the
instruction's own. -/
def step (s : State) : Host.Outcome State Fault Refusal :=
  match s.status with
  | .faulted _ => .next s
  | .running =>
    match s.fetch with
    | .error a => .next (s.takeFault .memoryBounds none (some a))
    | .ok w =>
      match decodeWord w with
      | .error _ => .next (s.takeFault .unknownInstruction (some w) none)
      | .ok i => exec i s

/-- `s` with the instruction whose bits are `w` (numbered as spec/opcode_table.json numbers them, zero from bit `nbits` on) stored at
`PC` and `PC+1`, big-endian, and `STATUS` Running, so that the next step fetches and runs it (log 9). -/
def State.withFetchWord (s : State) (nbits w : Nat) : State :=
  let word : Word := BitVec.ofNat 16 (w % 2 ^ nbits)
  { s with
    mem := s.mem.writeBytes s.pc.toNat [highByte word, lowByte word]
    status := .running }

end Sys2Proof.Machine
end

