-- ==== Sys2Proof/Machine/HostOps.lean ====
section
/-! DEFINITION. The host's operations (60_exceptions.md R220 to R230, 70_reset_and_hazards.md R250 to R254), each an atomic transaction on
the state, and their sequences: the host may issue them in any order between steps (R228, R259). -/

namespace Sys2Proof.Machine

/-- What the last step returned to the host: `Ok(result)` or `Fault(record)` (R70, R212); none when no step was made since reset. -/
inductive StepReturn where
  | ok (result : Report)
  | fault (record : FaultRecord)
  deriving DecidableEq, Repr

/-- What the step that led to `s` returned: the record in `STATUS` when it is Faulted (R71, R212), else the result record (R83). -/
def State.stepReturn (s : State) : Option StepReturn :=
  match s.status with
  | .faulted r => some (.fault r)
  | .running => s.report.map StepReturn.ok

/-- `set_keys(m)` (R222): the whole mask is replaced. -/
def State.setKeys (s : State) (m : Word) : State := { s with keys := m }

/-- `tick()` (R223): the delay timer falls by one and stays at 0. -/
def State.tick (s : State) : State := if s.dt = 0#8 then s else { s with dt := s.dt - 1#8 }

/-- `resolve_wait(r, k)` (R224): `V[r] <- zext_8(k)`; neither a wait nor its register is checked. -/
def State.resolveWait (s : State) (r : RegIdx) (k : Nibble) : State := s.setReg r (k.setWidth 8)

/-- The image is too long for `load_program`: `ImageTooLarge` (R254). -/
def imageTooLarge (image : List Byte) : Bool := decide (image.length > memSize - Config.programBase.toNat)

/-- `load_program(bytes)` where the image fits (R253): the bytes are copied to 0x200 and up, nothing else is written. -/
def State.loadImage (s : State) (image : List Byte) : State :=
  { s with mem := s.mem.writeBytes Config.programBase.toNat image }

/-- `dump_state()` (R236): the 16 registers and the index register; the text's format is not specified. -/
def State.dump (s : State) : Vector Byte 16 × Word := (s.v, s.i)

/-- The host's operations (R220). -/
inductive HostOp where
  /-- `initialize()` (R227). -/
  | reinit
  /-- `load_program(bytes)` (R226). -/
  | loadProgram (image : List Byte)
  /-- `step(rnd)` (R221); `rnd` is the free value of Config.lean. -/
  | step
  /-- `set_keys(m)` (R222). -/
  | setKeys (m : Word)
  /-- `tick()` (R223). -/
  | tick
  /-- `resolve_wait(r, k)` (R224). -/
  | resolveWait (r : RegIdx) (k : Nibble)
  /-- `read_state()` (R225). -/
  | readState
  /-- `dump_state()` (R236). -/
  | dumpState
  deriving DecidableEq, Repr

/-- What an operation answers to the host. -/
inductive HostReply where
  | done
  /-- The error result of `load_program` (R254). -/
  | imageTooLarge
  /-- What `step` returned (R70). -/
  | stepped (r : Option StepReturn)
  /-- The state block `read_state` shows (R225). -/
  | contents (s : State)
  /-- The projection of `dump_state` (R236). -/
  | dump (v : Vector Byte 16) (i : Word)
  deriving DecidableEq, Repr

/-- One host operation on a state: the next state and the answer. `STATUS` is consulted by `step` only (D20). -/
def perform (op : HostOp) (s : State) : Host.Outcome (State × HostReply) Fault Refusal :=
  match op with
  | .reinit => .next (s.initializeCore, .done)
  | .loadProgram image => if imageTooLarge image then .next (s, .imageTooLarge) else .next (s.loadImage image, .done)
  | .step =>
    match Sys2Proof.Machine.step s with
    | .next t => .next (t, .stepped t.stepReturn)
    | .fault f => .fault f
    | .refused r => .refused r
  | .setKeys m => .next (s.setKeys m, .done)
  | .tick => .next (s.tick, .done)
  | .resolveWait r k => .next (s.resolveWait r k, .done)
  | .readState => .next (s, .contents s)
  | .dumpState => .next (s, .dump s.v s.i)

/-- A sequence of host operations, each seeing the effects of all before it (R228). -/
def performAll (ops : List HostOp) (s : State) : StepOutcome :=
  match ops with
  | [] => .next s
  | op :: rest =>
    match perform op s with
    | .next (t, _) => performAll rest t
    | .fault f => .fault f
    | .refused r => .refused r

end Sys2Proof.Machine
end

