-- ==== Sys2Proof/Safety.lean ====
section
/-! DEFINITION. The terms claims use: what a good state is, what an instruction may read, write, report and raise (the spec's tables),
and what it means that an instruction completes or takes a fault. -/

namespace Sys2Proof.Machine

/-! ### States -/

/-- `STATUS = Running` (R31). -/
def State.Running (s : State) : Prop := s.status = .running

/-- The reset table of R34, row by row; FONT is Machine/Params.lean's (R33). -/
structure State.AtReset (s : State) : Prop where
  regs : ∀ r, s.reg r = 0#8
  index : s.i = 0#16
  pc : s.pc = 0x200#16
  stack : s.stack = []
  timer : s.dt = 0#8
  keys : s.keys = 0#16
  fontBytes : ∀ a, a < 0x50 → s.mem.read a = font.getD a 0#8
  otherBytes : ∀ a, 0x50 ≤ a → a < memSize → s.mem.read a = 0#8
  screen : ∀ px py, px < 64 → py < 32 → s.fb.pixel px py = false
  status : s.status = .running

/-- The idle end of a run: Running, and the word at `PC` is `1nnn` with `nnn = PC` (R238). -/
def State.Idle (s : State) : Prop := s.Running ∧ ∃ nnn : Addr12, s.fetch = .ok (encode (.jp nnn)) ∧ s.pc.toNat = nnn.toNat

/-- At most one field of a result record is non-empty (R84). -/
def Report.exclusive (r : Report) : Bool := decide (r.clear.toNat + r.draw.isSome.toNat + r.wait.isSome.toNat ≤ 1)

/-- A fault record holds what R210 and R212 let a step record, by kind. -/
def FaultRecord.Sound (r : FaultRecord) : Prop :=
  match r.kind with
  | .unsupportedInstruction => r.info = none ∧ ∃ nnn : Addr12, (Instr.sys nnn).wellFormed = true ∧ r.word = some (encode (.sys nnn))
  | .unknownInstruction => r.info = none ∧ ∃ w e, r.word = some w ∧ decodeWord w = .error e
  | .stackUnderflow => r.info = none ∧ r.word = some 0x00EE#16
  | .stackOverflow => r.info = none ∧ ∃ nnn, r.word = some (encode (.call nnn))
  | .memoryBounds => ∃ a, r.info = some a ∧ memSize ≤ a
  | .drawRowOutOfRange => ∃ row x y n, r.info = some row ∧ 32 ≤ row ∧ r.word = some (encode (.drw x y n))
  | .keyIndexOutOfRange => ∃ k x, r.info = some k ∧ 15 < k ∧ (r.word = some (encode (.skp x)) ∨ r.word = some (encode (.sknp x)))

/-- What every host operation keeps: memory is canonical and only existing bytes are listed, the stack is within its capacity (R26),
the record returned has at most one field (R84), and a fault leaves `PC = pc0`, no result record and a record R210 allows (R212). -/
structure State.Inv (s : State) : Prop where
  memCanonical : s.mem.wf = true
  memInRange : s.mem.inRange = true
  stackBounded : s.stack.length ≤ stackDepth
  reportExclusive : ∀ r, s.report = some r → r.exclusive = true
  faultPrecise : ∀ r, s.status = .faulted r → r.pc0 = s.pc ∧ s.report = none ∧ r.Sound

/-! ### Frames -/

/-- The elements of the state block other than the general registers and `PC` (R20), and the model's draw counter. -/
inductive Part where
  | index | stack | timer | keys | memory | frame | status | draws
  deriving DecidableEq, Repr

/-- From `s` to `t` every general register outside `regs` and every part outside `parts` is unchanged: memory by every byte's reading,
the framebuffer by every pixel. `PC` and the result record are not constrained. -/
structure UnchangedBut (regs : List RegIdx) (parts : List Part) (s t : State) : Prop where
  regs : ∀ r, r ∉ regs → t.reg r = s.reg r
  index : Part.index ∉ parts → t.i = s.i
  stack : Part.stack ∉ parts → t.stack = s.stack
  timer : Part.timer ∉ parts → t.dt = s.dt
  keys : Part.keys ∉ parts → t.keys = s.keys
  memory : Part.memory ∉ parts → ∀ a, t.mem.read a = s.mem.read a
  frame : Part.frame ∉ parts → ∀ px py, px < 64 → py < 32 → t.fb.pixel px py = s.fb.pixel px py
  status : Part.status ∉ parts → t.status = s.status
  draws : Part.draws ∉ parts → t.draws = s.draws

/-- Instruction `i` at `s` completes: `exec` answers a next state, with this `PC` and result record, in which nothing outside `regs` and
`parts` has changed and `post` holds. -/
def Completes (i : Instr) (s : State) (regs : List RegIdx) (parts : List Part) (pc : Word) (report : Report) (post : State → Prop) : Prop :=
  ∃ t, exec i s = .next t ∧ t.pc = pc ∧ t.report = some report ∧ UnchangedBut regs parts s t ∧ post t

/-- A fault is taken from `s` to `t` (R212, R213): `STATUS` holds the record, `PC` is `pc0`, nothing else has changed, no result record. -/
def FaultTaken (s t : State) (kind : FaultKind) (word : Option Word) (info : Option Nat) : Prop :=
  t.status = .faulted ⟨kind, s.pc, word, info⟩ ∧ t.pc = s.pc ∧ t.report = none ∧ UnchangedBut [] [.status] s t

/-- Instruction `i` at `s` raises this fault, which `exec` takes as a next state; the record's word is the instruction's. -/
def Faults (i : Instr) (s : State) (kind : FaultKind) (info : Option Nat) : Prop :=
  ∃ t, exec i s = .next t ∧ FaultTaken s t kind (some (encode i)) info

/-! ### The spec's tables -/

/-- The registers `V0`..`Vx`. -/
def regBlock (x : RegIdx) : List RegIdx := (List.range (x.toNat + 1)).map (BitVec.ofNat 4)

/-- The general registers an instruction writes (R23). -/
def regsWritten (i : Instr) : List RegIdx :=
  match i with
  | .ldImm x _ | .addImm x _ | .ldReg x _ | .orReg x _ | .andReg x _ | .xorReg x _ | .rnd x _ | .ldVxDT x => [x]
  | .addReg x _ | .subReg x _ | .shr x _ | .subnReg x _ | .shl x _ => [x, 0xF#4]
  | .drw _ _ n => if n = 0#4 then [] else [0xF#4]
  | .ldVxMem x => regBlock x
  | .cls | .ret | .sys _ | .jp _ | .call _ | .seImm _ _ | .sneImm _ _ | .seReg _ _ | .sneReg _ _ | .ldI _ | .jpV0 _ | .skp _
  | .sknp _ | .ldVxK _ | .ldDTVx _ | .ldST _ | .addI _ | .ldF _ | .ldB _ | .ldMemVx _ => []

/-- The general registers an instruction reads (R23). -/
def regsRead (i : Instr) : List RegIdx :=
  match i with
  | .seImm x _ | .sneImm x _ | .addImm x _ | .shr x _ | .shl x _ | .skp x | .sknp x | .ldDTVx x | .addI x | .ldF x | .ldB x => [x]
  | .ldReg _ y => [y]
  | .seReg x y | .sneReg x y | .orReg x y | .andReg x y | .xorReg x y | .addReg x y | .subReg x y | .subnReg x y
  | .drw x y _ => [x, y]
  | .jpV0 _ => [0x0#4]
  | .ldMemVx x => regBlock x
  | .cls | .ret | .sys _ | .jp _ | .call _ | .ldImm _ _ | .ldI _ | .rnd _ _ | .ldVxDT _ | .ldVxK _ | .ldST _ | .ldVxMem _ => []

/-- The other parts of the state block an instruction writes: `I` (R24), `STACK` (R26), `DT` (R27), memory (R56), `FB` (R30), and the
model's draw counter (log 2). No instruction writes `KEYS` (R28). -/
def partsWritten (i : Instr) : List Part :=
  match i with
  | .ldI _ | .addI _ | .ldF _ | .ldVxMem _ => [.index]
  | .ldMemVx _ => [.index, .memory]
  | .ldB _ => [.memory]
  | .call _ | .ret => [.stack]
  | .ldDTVx _ => [.timer]
  | .cls | .drw _ _ _ => [.frame]
  | .rnd _ _ => [.draws]
  | .sys _ | .jp _ | .seImm _ _ | .sneImm _ _ | .seReg _ _ | .ldImm _ _ | .addImm _ _ | .ldReg _ _ | .orReg _ _ | .andReg _ _
  | .xorReg _ _ | .addReg _ _ | .subReg _ _ | .shr _ _ | .subnReg _ _ | .shl _ _ | .sneReg _ _ | .jpV0 _ | .skp _ | .sknp _
  | .ldVxDT _ | .ldVxK _ | .ldST _ => []

/-- The addresses an instruction stores to (R56): the three digits of Fx33 and the `x + 1` registers of Fx55, from `I` up, as their
meanings compute them. -/
def bytesWritten (i : Instr) (s : State) : List Nat :=
  match i with
  | .ldB _ => (List.range 3).map (s.i.toNat + ·)
  | .ldMemVx x => (List.range (blockLength x)).map (s.i.toNat + ·)
  | .cls | .ret | .sys _ | .jp _ | .call _ | .seImm _ _ | .sneImm _ _ | .seReg _ _ | .ldImm _ _ | .addImm _ _ | .ldReg _ _
  | .orReg _ _ | .andReg _ _ | .xorReg _ _ | .addReg _ _ | .subReg _ _ | .shr _ _ | .subnReg _ _ | .shl _ _ | .sneReg _ _
  | .ldI _ | .jpV0 _ | .rnd _ _ | .drw _ _ _ | .skp _ | .sknp _ | .ldVxDT _ | .ldVxK _ | .ldDTVx _ | .ldST _ | .addI _
  | .ldF _ | .ldVxMem _ => []

/-- The byte at `a` once `bytes` are stored from `base` up over the memory of `s`. -/
def State.byteAfterStore (s : State) (base : Nat) (bytes : List Byte) (a : Nat) : Byte :=
  if a < base then s.mem.read a else bytes.getD (a - base) (s.mem.read a)

/-- The word at `a` once `bytes` are stored from `base` up: the byte at `a` is bits 15:8 (R53). -/
def State.wordAfterStore (s : State) (base : Nat) (bytes : List Byte) (a : Nat) : Word :=
  s.byteAfterStore base bytes a ++ s.byteAfterStore base bytes (a + 1)

/-- The faults an instruction can raise, besides the fetch's (R211). -/
def faultKinds (i : Instr) : List FaultKind :=
  match i with
  | .sys _ => [.unsupportedInstruction]
  | .ret => [.stackUnderflow]
  | .call _ => [.stackOverflow]
  | .drw _ _ _ => [.memoryBounds, .drawRowOutOfRange]
  | .ldB _ | .ldMemVx _ | .ldVxMem _ => [.memoryBounds]
  | .skp _ | .sknp _ => [.keyIndexOutOfRange]
  | .cls | .jp _ | .seImm _ _ | .sneImm _ _ | .seReg _ _ | .ldImm _ _ | .addImm _ _ | .ldReg _ _ | .orReg _ _ | .andReg _ _
  | .xorReg _ _ | .addReg _ _ | .subReg _ _ | .shr _ _ | .subnReg _ _ | .shl _ _ | .sneReg _ _ | .ldI _ | .jpV0 _ | .rnd _ _
  | .ldVxDT _ | .ldVxK _ | .ldDTVx _ | .ldST _ | .addI _ | .ldF _ => []

/-- The result record of an instruction that does not fault (R83): `clear`, `draw` and `wait` are each set by one instruction. -/
def resultOf (i : Instr) (s : State) : Report :=
  match i with
  | .cls => { clear := true }
  | .drw x y n => { draw := some ⟨s.reg x, s.reg y, n⟩ }
  | .ldVxK x => { wait := some x }
  | .ret | .sys _ | .jp _ | .call _ | .seImm _ _ | .sneImm _ _ | .seReg _ _ | .ldImm _ _ | .addImm _ _ | .ldReg _ _
  | .orReg _ _ | .andReg _ _ | .xorReg _ _ | .addReg _ _ | .subReg _ _ | .shr _ _ | .subnReg _ _ | .shl _ _ | .sneReg _ _
  | .ldI _ | .jpV0 _ | .rnd _ _ | .skp _ | .sknp _ | .ldVxDT _ | .ldDTVx _ | .ldST _ | .addI _ | .ldF _ | .ldB _
  | .ldMemVx _ | .ldVxMem _ => {}

/-- The control transfers (R109): the values `PC` may have after the instruction, when it does not fault. -/
def nextPCs (i : Instr) (s : State) : List Word :=
  match i with
  | .jp nnn | .call nnn => [nnn.setWidth 16]
  | .jpV0 nnn => [(s.reg 0x0#4).setWidth 16 + nnn.setWidth 16]
  | .ret => s.stack.head?.toList
  | .seImm _ _ | .sneImm _ _ | .seReg _ _ | .sneReg _ _ | .skp _ | .sknp _ => [s.pc + 2#16, s.pc + 4#16]
  | .cls | .sys _ | .ldImm _ _ | .addImm _ _ | .ldReg _ _ | .orReg _ _ | .andReg _ _ | .xorReg _ _ | .addReg _ _ | .subReg _ _
  | .shr _ _ | .subnReg _ _ | .shl _ _ | .ldI _ | .rnd _ _ | .drw _ _ _ | .ldVxDT _ | .ldVxK _ | .ldDTVx _ | .ldST _ | .addI _
  | .ldF _ | .ldB _ | .ldMemVx _ | .ldVxMem _ => [s.pc + 2#16]

/-! ### The screen -/

/-- The pixel the sprite of Dxyn covers at column `px` and row `py`: bit `7 - (px - xs mod 64)` of row `py - ys`, and whether there is
one (R170, R172). `rowAt i` is the sprite's byte `i`. -/
def spritePixel (rowAt : Nat → Byte) (xs ys n px py : Nat) : Bool :=
  let column := (px + 64 - xs % 64) % 64
  decide (ys ≤ py ∧ py < ys + n ∧ column < 8) && (rowAt (py - ys)).getLsbD (7 - column)

/-- The rectangle a `draw(x, y, n)` report names: `[x, x+8) × [y, y+n)`, or the full row width if `x > 56` (R83, R174). -/
def DrawReport.covers (d : DrawReport) (px py : Nat) : Bool :=
  decide (d.y.toNat ≤ py ∧ py < d.y.toNat + d.n.toNat ∧ (56 < d.x.toNat ∨ (d.x.toNat ≤ px ∧ px < d.x.toNat + 8)))

/-- The words outside the opcode map and outside family 0, as R81 lists them. -/
def illegalWord (w : Word) : Bool :=
  let o := (w.toNat / 4096)
  let n := w.toNat % 16
  let kk := w.toNat % 256
  (o == 5 && n != 0) || (o == 9 && n != 0)
    || (o == 8 && [0x8, 0x9, 0xA, 0xB, 0xC, 0xD, 0xF].contains n)
    || (o == 0xE && !([0x9E, 0xA1].contains kk))
    || (o == 0xF && !([0x07, 0x0A, 0x15, 0x18, 0x1E, 0x29, 0x33, 0x55, 0x65].contains kk))

end Sys2Proof.Machine
end

