-- ==== Sys2Proof/Certificates/Slice0/Obligations.lean ====
section
/-! DEFINITION. The statements for the provers, one definition each. Unless a docstring says otherwise they rest on the spec's
numbered rules; the places that rest on a choice of the model name its log entry. -/

open Sys2Proof Sys2Proof.Machine

/-! ### Reset and the host's operations -/

/-- The table of R34 holds of the state after reset, and `initialize()` leaves it from any state (R250). -/
def Obligations.ReinitLeavesResetTable : Prop :=
  State.reset.AtReset ∧ ∀ s : State, ∃ t, perform .reinit s = .next (t, .done) ∧ t.AtReset

/-- `set_keys`, `tick` and `resolve_wait` do what R222 to R224 say in every state, a Faulted one too, and nothing else. -/
def Obligations.HostWritesKeysTimerAndRegister : Prop :=
  ∀ s : State,
    (∀ m : Word, ∃ t, perform (.setKeys m) s = .next (t, .done) ∧ t.keys = m ∧ t.pc = s.pc ∧ UnchangedBut [] [.keys] s t) ∧
    (∃ t, perform .tick s = .next (t, .done) ∧ t.dt.toNat = s.dt.toNat - 1 ∧ t.pc = s.pc ∧ UnchangedBut [] [.timer] s t) ∧
    (∀ (r : RegIdx) (k : Nibble), ∃ t, perform (.resolveWait r k) s = .next (t, .done) ∧ (t.reg r).toNat = k.toNat ∧
      t.pc = s.pc ∧ UnchangedBut [r] [] s t)

/-- `load_program` copies a fitting image to 0x200 and writes nothing else (R253); a longer one is refused and nothing changes (R254). -/
def Obligations.LoadProgramCopiesImage : Prop :=
  ∀ (image : List Byte) (s : State),
    (image.length ≤ memSize - 0x200 → ∃ t, perform (.loadProgram image) s = .next (t, .done) ∧
      (∀ k (h : k < image.length), t.mem.read (0x200 + k) = image[k]) ∧
      (∀ a, a < 0x200 ∨ 0x200 + image.length ≤ a → t.mem.read a = s.mem.read a) ∧
      t.pc = s.pc ∧ UnchangedBut [] [.memory] s t) ∧
    (memSize - 0x200 < image.length → perform (.loadProgram image) s = .next (s, .imageTooLarge))

/-- The boot order of R255: after `initialize()` and `load_program(image)` the core runs and fetches the image's first word. -/
def Obligations.BootFetchesFirstImageWord : Prop :=
  ∀ (hi lo : Byte) (rest : List Byte) (s t : State), rest.length + 2 ≤ memSize - 0x200 →
    performAll [.reinit, .loadProgram (hi :: lo :: rest)] s = .next t →
    t.Running ∧ t.pc = 0x200#16 ∧ t.fetch = .ok (hi ++ lo)

/-- No host operation but `initialize()` leaves the Faulted state, and `initialize()` does (R216). -/
def Obligations.OnlyReinitLeavesFaulted : Prop :=
  ∀ (op : HostOp) (s t : State) (reply : HostReply) (r : FaultRecord), s.status = .faulted r → perform op s = .next (t, reply) →
    (op ≠ .reinit → t.status = .faulted r) ∧ (op = .reinit → t.status = .running)

/-! ### Decoding and encoding -/

/-- Words written out from R80's patterns and the examples of the spec's rules decode to what they stand for. -/
def Obligations.SpecWordsDecode : Prop :=
  decodeWord 0x00E0#16 = .ok .cls ∧ decodeWord 0x00EE#16 = .ok .ret ∧ decodeWord 0x01E0#16 = .ok (.sys 0x1E0) ∧
  decodeWord 0x1200#16 = .ok (.jp 0x200) ∧ decodeWord 0x2210#16 = .ok (.call 0x210) ∧ decodeWord 0x3342#16 = .ok (.seImm 3 0x42) ∧
  decodeWord 0x8566#16 = .ok (.shr 5 6) ∧ decodeWord 0x850E#16 = .ok (.shl 5 0) ∧ decodeWord 0xB300#16 = .ok (.jpV0 0x300) ∧
  decodeWord 0xD015#16 = .ok (.drw 0 1 5) ∧ decodeWord 0xE2A1#16 = .ok (.sknp 2) ∧ decodeWord 0xF365#16 = .ok (.ldVxMem 3) ∧
  decodeWord 0x5001#16 = .error (.unknownInstruction 0x5001) ∧ decodeWord 0xFFFF#16 = .error (.unknownInstruction 0xFFFF)

/-- Decoding the encoding of any well-formed instruction gives it back, from the word and from the two bytes followed by any others. -/
def Obligations.DecodeOfEncode : Prop :=
  ∀ i : Instr, i.wellFormed = true →
    decodeWord (encode i) = .ok i ∧ ∀ rest, decodeBytes (encodeBytes i ++ rest) = .ok (i, rest)

/-- The other direction: what a word decodes to is well-formed and encodes to that word, so each word has one meaning and a fault
record's word is the fetched one. -/
def Obligations.EncodeOfDecode : Prop :=
  ∀ (w : Word) (i : Instr), decodeWord w = .ok i → i.wellFormed = true ∧ encode i = w

/-- The decoder is the opcode map of R80: a decoded word lies in its instruction's row, a rejected one in no row, and rows are disjoint. -/
def Obligations.DecodeFollowsOpcodeMap : Prop :=
  ∀ w : Word,
    (∀ i, decodeWord w = .ok i → opcodeRow i ∈ opcodeMap ∧ rowTakes (opcodeRow i) w = true) ∧
    (∀ e, decodeWord w = .error e → ∀ r ∈ opcodeMap, rowTakes r w = false) ∧
    (∀ r₁ ∈ opcodeMap, ∀ r₂ ∈ opcodeMap, rowTakes r₁ w = true → rowTakes r₂ w = true → r₁ = r₂)

/-! ### The step -/

/-- A Running core whose two bytes at `PC` decode to `i` runs `i`: the step is `exec i`, which itself advances `PC` (R73). -/
def Obligations.StepRunsDecodedInstruction : Prop :=
  ∀ (s : State) (i : Instr), s.Running → s.pc.toNat + 1 < memSize →
    decodeBytes [s.mem.read s.pc.toNat, s.mem.read (s.pc.toNat + 1)] = .ok (i, []) → step s = exec i s

/-- The fetch (R72): the byte at `PC` is bits 15:8 and the next one bits 7:0, at any `PC`, odd ones too; with `PC + 1 >= MEM_SIZE` the
step takes `MemoryBounds` with the first address out of range, and records no word. -/
def Obligations.FetchIsBigEndianAndBounded : Prop :=
  ∀ s : State,
    (s.pc.toNat + 1 < memSize → ∃ w : Word, s.fetch = .ok w ∧
      w.extractLsb' 8 8 = s.mem.read s.pc.toNat ∧ w.extractLsb' 0 8 = s.mem.read (s.pc.toNat + 1)) ∧
    (s.Running → memSize ≤ s.pc.toNat + 1 →
      ∃ t, step s = .next t ∧ FaultTaken s t .memoryBounds none (some (max s.pc.toNat memSize)))

/-- A step while Faulted changes no state and returns the same fault (R71). -/
def Obligations.FaultedStepChangesNothing : Prop :=
  ∀ (s : State) (r : FaultRecord), s.status = .faulted r → step s = .next s ∧ s.stepReturn = some (.fault r)

/-- The words of R81: a family-0 word other than 00E0 and 00EE takes `UnsupportedInstruction`, an unmatched word of families 5, 8, 9, E
and F takes `UnknownInstruction`, with the word in the record. -/
def Obligations.IllegalWordsFault : Prop :=
  ∀ (s : State) (w : Word), s.Running → s.fetch = .ok w →
    (w.toNat < 0x1000 → w ≠ 0x00E0#16 → w ≠ 0x00EE#16 →
      ∃ t, step s = .next t ∧ FaultTaken s t .unsupportedInstruction (some w) none) ∧
    (illegalWord w = true → ∃ t, step s = .next t ∧ FaultTaken s t .unknownInstruction (some w) none)

/-- A step never stops the machine and is never refused: from every state it answers a next state. -/
def Obligations.StepAlwaysReturns : Prop := ∀ s : State, ∃ t, step s = .next t

/-- Faults are precise (R212): a step that ends Faulted from a Running state has written nothing but the record; the record holds `pc0`
and the fetched word, or no word when the fetch itself faulted; the step returned it, every later one does, and no host operation but
`initialize()` changes it. -/
def Obligations.FaultsArePrecise : Prop :=
  ∀ (s t : State) (r : FaultRecord), s.Running → step s = .next t → t.status = .faulted r →
    FaultTaken s t r.kind r.word r.info ∧ r.pc0 = s.pc ∧
    ((∃ a, s.fetch = .error a ∧ r.word = none) ∨ (∃ w, s.fetch = .ok w ∧ r.word = some w)) ∧
    t.stepReturn = some (.fault r) ∧ step t = .next t ∧
    ∀ (op : HostOp) (u : State) (reply : HostReply), op ≠ .reinit → perform op t = .next (u, reply) →
      u.status = .faulted r ∧ step u = .next u ∧ u.stepReturn = some (.fault r)

/-- An instruction raises only the faults R211 lists for it (R211 is an inference the spec marks as its own, from the instructions'
rules). -/
def Obligations.FaultKindsOfInstructions : Prop :=
  ∀ (i : Instr) (s t : State) (r : FaultRecord), s.Running → exec i s = .next t → t.status = .faulted r → r.kind ∈ faultKinds i

/-! ### Invariants -/

/-- The state after reset meets the invariant. -/
def Obligations.ResetMeetsInvariant : Prop := State.reset.Inv

/-- Every step keeps the invariant: memory stays canonical and in range, the stack within its capacity, the result record exclusive, a
fault precise and its record one R210 allows. -/
def Obligations.StepKeepsInvariant : Prop := ∀ s t : State, s.Inv → step s = .next t → t.Inv

/-- Every sequence of host operations keeps the invariant, in any interleaving with steps (R228). -/
def Obligations.HostSequencesKeepInvariant : Prop :=
  ∀ (ops : List HostOp) (s t : State), s.Inv → performAll ops s = .next t → t.Inv

/-! ### Rules over all instructions -/

/-- An instruction that does not fault writes only the registers R23 lists for it, only the other elements R24, R26, R27 and R30 give
it, and of memory only the bytes R56 gives it: Fx33 `I`..`I+2`, Fx55 `I`..`I+x`, the others none; `KEYS` is never written (R28). R23 and
R56 are inferences the spec marks as its own, from the opcode table; `draws` is the model's (log 2). -/
def Obligations.InstructionsWriteOnlyTheirState : Prop :=
  ∀ (i : Instr) (s t : State), s.Running → exec i s = .next t → t.Running →
    UnchangedBut (regsWritten i) (partsWritten i) s t ∧ ∀ a, a ∉ bytesWritten i s → t.mem.read a = s.mem.read a

/-- An instruction reads only the registers R23 lists (an inference the spec marks as its own, from the opcode table): changing any other
register beforehand changes no other element of the outcome, and changes nothing at all where the instruction writes that register. -/
def Obligations.InstructionsReadOnlyListedRegisters : Prop :=
  ∀ (i : Instr) (s t : State) (r : RegIdx) (b : Byte), r ∉ regsRead i → s.Running → exec i s = .next t →
    ∃ u, exec i (s.setReg r b) = .next u ∧ u.setReg r 0#8 = t.setReg r 0#8 ∧ (t.Running → r ∈ regsWritten i → u = t)

/-- Only Ex9E and ExA1 read `KEYS`, only Fx07 reads `DT`, only Cxkk draws a random byte (R27, R28, R82): changing one of them beforehand
changes no other element of any other instruction's outcome. (`draws` is the model's own counter, log 2.) -/
def Obligations.InputsReadOnlyByTheirInstructions : Prop :=
  ∀ (i : Instr) (s t : State), s.Running → exec i s = .next t →
    (∀ m : Word, (∀ x, i ≠ .skp x ∧ i ≠ .sknp x) → exec i { s with keys := m } = .next { t with keys := m }) ∧
    (∀ d : Byte, (∀ x, i ≠ .ldVxDT x) →
      ∃ u, exec i { s with dt := d } = .next u ∧ { u with dt := t.dt } = t ∧ (t.Running → (∀ x, i ≠ .ldDTVx x) → u.dt = d)) ∧
    (∀ k : Nat, (∀ x kk, i ≠ .rnd x kk) → exec i { s with draws := k } = .next { t with draws := k })

/-- The result record of a step that does not fault is the one of its instruction, and at most one of its fields is non-empty
(R84, an inference the spec marks as its own, from R83 and R70; the record's place in State is log 3). -/
def Obligations.ResultRecordByInstruction : Prop :=
  ∀ (i : Instr) (s t : State), s.Running → exec i s = .next t → t.Running →
    t.report = some (resultOf i s) ∧ (resultOf i s).exclusive = true

/-- The only control transfers are the advance, the skips, the jumps, the call and the return (R109, an inference the spec marks as its
own, from R100 to R108, R191 and R192). -/
def Obligations.ControlTransfersAreListed : Prop :=
  ∀ (i : Instr) (s t : State), s.Running → exec i s = .next t → t.Running → t.pc ∈ nextPCs i s

/-- At an idle self-jump a step leaves the whole state block unchanged (R102, R238); the step's result record is empty. -/
def Obligations.IdleStepChangesNothing : Prop :=
  ∀ s : State, s.Idle → step s = .next { s with report := some {} } ∧ State.Idle { s with report := some {} }

/-! ### Control transfer -/

/-- 1nnn: `PC <- nnn` (R102), nothing else changes; so a jump to itself leaves the whole state unchanged. -/
def Obligations.JumpSetsPc : Prop :=
  ∀ (nnn : Addr12) (s : State), Completes (.jp nnn) s [] [] (nnn.setWidth 16) {} (fun t => t.pc.toNat = nnn.toNat)

/-- Bnnn: `PC <- V0 + nnn`, not reduced to 12 bits (R108). -/
def Obligations.ComputedJumpAddsV0 : Prop :=
  ∀ (nnn : Addr12) (s : State),
    Completes (.jpV0 nnn) s [] [] (BitVec.ofNat 16 ((s.reg 0#4).toNat + nnn.toNat)) {}
      (fun t => t.pc.toNat = (s.reg 0#4).toNat + nnn.toNat)

/-- 2nnn: push `pc0 + 2`, `PC <- nnn`; with a full stack `StackOverflow` (R103). -/
def Obligations.CallPushesReturnAddress : Prop :=
  ∀ (nnn : Addr12) (s : State),
    (s.stack.length < stackDepth →
      Completes (.call nnn) s [] [.stack] (nnn.setWidth 16) {} (fun t => t.stack = (s.pc + 2#16) :: s.stack)) ∧
    (s.stack.length = stackDepth → Faults (.call nnn) s .stackOverflow none)

/-- 00EE: pop the top to `PC`; with an empty stack `StackUnderflow` (R100). -/
def Obligations.ReturnPopsStack : Prop :=
  ∀ s : State,
    (∀ top rest, s.stack = top :: rest → Completes .ret s [] [.stack] top {} (fun t => t.stack = rest)) ∧
    (s.stack = [] → Faults .ret s .stackUnderflow none)

/-- CALL then RET restores `PC` to the instruction after the CALL and the stack to what it was (R79, R100, R103). -/
def Obligations.CallThenReturn : Prop :=
  ∀ (nnn : Addr12) (s t : State), s.stack.length < stackDepth → exec (.call nnn) s = .next t →
    ∃ u, exec .ret t = .next u ∧ u.pc = s.pc + 2#16 ∧ u.stack = s.stack ∧ UnchangedBut [] [] s u

/-- 0nnn other than 00E0 and 00EE always raises `UnsupportedInstruction` (R101). -/
def Obligations.SysRaisesUnsupported : Prop :=
  ∀ (nnn : Addr12) (s : State), Faults (.sys nnn) s .unsupportedInstruction none

/-- 3xkk, 4xkk, 5xy0, 9xy0: skip exactly on the comparison of R104 to R107; nothing else changes. -/
def Obligations.SkipsCompareRegisters : Prop :=
  ∀ (x y : RegIdx) (kk : Byte) (s : State),
    Completes (.seImm x kk) s [] [] (if s.reg x = kk then s.pc + 4#16 else s.pc + 2#16) {} (fun _ => True) ∧
    Completes (.sneImm x kk) s [] [] (if s.reg x ≠ kk then s.pc + 4#16 else s.pc + 2#16) {} (fun _ => True) ∧
    Completes (.seReg x y) s [] [] (if s.reg x = s.reg y then s.pc + 4#16 else s.pc + 2#16) {} (fun _ => True) ∧
    Completes (.sneReg x y) s [] [] (if s.reg x ≠ s.reg y then s.pc + 4#16 else s.pc + 2#16) {} (fun _ => True)

/-! ### Register arithmetic and logic -/

/-- 6xkk and 8xy0 write the immediate and the old `V[y]` to `V[x]` (R120, R122). -/
def Obligations.LoadsWriteDestination : Prop :=
  ∀ (x y : RegIdx) (kk : Byte) (s : State),
    Completes (.ldImm x kk) s [x] [] (s.pc + 2#16) {} (fun t => t.reg x = kk) ∧
    Completes (.ldReg x y) s [x] [] (s.pc + 2#16) {} (fun t => t.reg x = s.reg y)

/-- 7xkk adds modulo 256 and writes no other register, so `VF` is untouched unless `x = 0xF` (R121). -/
def Obligations.AddImmediateWraps : Prop :=
  ∀ (x : RegIdx) (kk : Byte) (s : State),
    Completes (.addImm x kk) s [x] [] (s.pc + 2#16) {} (fun t => (t.reg x).toNat = ((s.reg x).toNat + kk.toNat) % 256)

/-- 8xy1, 8xy2, 8xy3: OR, AND, XOR bit by bit into `V[x]`, no other register (R123, R124, R125). -/
def Obligations.LogicIsBitwise : Prop :=
  ∀ (x y : RegIdx) (s : State),
    Completes (.orReg x y) s [x] [] (s.pc + 2#16) {}
      (fun t => ∀ b < 8, (t.reg x).getLsbD b = ((s.reg x).getLsbD b || (s.reg y).getLsbD b)) ∧
    Completes (.andReg x y) s [x] [] (s.pc + 2#16) {}
      (fun t => ∀ b < 8, (t.reg x).getLsbD b = ((s.reg x).getLsbD b && (s.reg y).getLsbD b)) ∧
    Completes (.xorReg x y) s [x] [] (s.pc + 2#16) {}
      (fun t => ∀ b < 8, (t.reg x).getLsbD b = xor ((s.reg x).getLsbD b) ((s.reg y).getLsbD b))

/-- 8xy4: the low 8 bits of the sum, and `VF` 1 exactly when it exceeds 255; with `x = 0xF` the flag survives (R126). -/
def Obligations.AddSetsCarry : Prop :=
  ∀ (x y : RegIdx) (s : State),
    Completes (.addReg x y) s [x, 0xF#4] [] (s.pc + 2#16) {} (fun t =>
      (x ≠ 0xF#4 → (t.reg x).toNat = ((s.reg x).toNat + (s.reg y).toNat) % 256) ∧
      t.reg 0xF#4 = if (s.reg x).toNat + (s.reg y).toNat > 255 then 1#8 else 0#8)

/-- 8xy5 and 8xy7: the difference modulo 256, and `VF` 1 exactly when the minuend is strictly greater; with `x = 0xF` the flag survives
(R127, R129). -/
def Obligations.SubtractSetsNotBorrow : Prop :=
  ∀ (x y : RegIdx) (s : State),
    Completes (.subReg x y) s [x, 0xF#4] [] (s.pc + 2#16) {} (fun t =>
      (x ≠ 0xF#4 → ((t.reg x).toNat : Int) = (((s.reg x).toNat : Int) - (s.reg y).toNat) % 256) ∧
      t.reg 0xF#4 = if (s.reg x).toNat > (s.reg y).toNat then 1#8 else 0#8) ∧
    Completes (.subnReg x y) s [x, 0xF#4] [] (s.pc + 2#16) {} (fun t =>
      (x ≠ 0xF#4 → ((t.reg x).toNat : Int) = (((s.reg y).toNat : Int) - (s.reg x).toNat) % 256) ∧
      t.reg 0xF#4 = if (s.reg y).toNat > (s.reg x).toNat then 1#8 else 0#8)

/-- 8xy6 and 8xyE shift `V[x]` by one, whatever `y`; `VF` is the bit shifted out; with `x = 0xF` the flag survives (R128, R130). -/
def Obligations.ShiftsMoveOneBit : Prop :=
  ∀ (x y : RegIdx) (s : State),
    Completes (.shr x y) s [x, 0xF#4] [] (s.pc + 2#16) {} (fun t =>
      (x ≠ 0xF#4 → (t.reg x).toNat = (s.reg x).toNat / 2) ∧ (t.reg 0xF#4).toNat = (s.reg x).toNat % 2) ∧
    Completes (.shl x y) s [x, 0xF#4] [] (s.pc + 2#16) {} (fun t =>
      (x ≠ 0xF#4 → (t.reg x).toNat = (s.reg x).toNat * 2 % 256) ∧ (t.reg 0xF#4).toNat = (s.reg x).toNat / 128)

/-- Cxkk writes the step's free byte masked by `kk` (R131); the free byte is the model's free value number `draws`, and each Cxkk draws
the next one (DESIGN CHOICE of form, log 2). The statement holds for every value of that byte. -/
def Obligations.RandomIsMaskedFreeByte : Prop :=
  ∀ (x : RegIdx) (kk : Byte) (s : State),
    Completes (.rnd x kk) s [x] [.draws] (s.pc + 2#16) {} (fun t =>
      t.reg x = (Config.randomByte s.draws &&& kk) ∧ t.draws = s.draws + 1 ∧
      (kk = 0x00#8 → t.reg x = 0#8) ∧ (kk = 0xFF#8 → t.reg x = Config.randomByte s.draws))

/-! ### Index register and memory -/

/-- Annn, Fx1E, Fx29: the new `I` (R150, R151, R152). -/
def Obligations.IndexRegisterLoads : Prop :=
  ∀ (nnn : Addr12) (x : RegIdx) (s : State),
    Completes (.ldI nnn) s [] [.index] (s.pc + 2#16) {} (fun t => t.i.toNat = nnn.toNat) ∧
    Completes (.addI x) s [] [.index] (s.pc + 2#16) {} (fun t => t.i.toNat = (s.i.toNat + (s.reg x).toNat) % 65536) ∧
    Completes (.ldF x) s [] [.index] (s.pc + 2#16) {} (fun t => t.i.toNat = 5 * (s.reg x).toNat)

/-- Fx29 with `V[x]` in 0..15 points `I` at the glyph's five bytes of FONT wherever the font stands in memory as reset left it, whatever
the rest of memory holds; glyph A's bytes are the source's (the other glyphs' values: log 1). -/
def Obligations.GlyphAddressedByIndex : Prop :=
  ∀ (x : RegIdx) (s t : State), (∀ a, a < 0x50 → s.mem.read a = font.getD a 0#8) → (s.reg x).toNat < 16 →
    exec (.ldF x) s = .next t →
    (∀ k < 5, t.mem.read (t.i.toNat + k) = font.getD (5 * (s.reg x).toNat + k) 0#8) ∧
    (s.reg x = 0x0A#8 → (List.range 5).map (fun k => t.mem.read (t.i.toNat + k)) = [0xF0#8, 0x90#8, 0xF0#8, 0x90#8, 0x90#8])

/-- Fx33: the hundreds, tens and units of `V[x]` at `I`, `I+1`, `I+2`, no other byte, `I` unchanged; past the end `MemoryBounds` (R153). -/
def Obligations.BcdStoresDigits : Prop :=
  ∀ (x : RegIdx) (s : State),
    (s.i.toNat + 2 < memSize → Completes (.ldB x) s [] [.memory] (s.pc + 2#16) {} (fun t =>
      (t.mem.read s.i.toNat).toNat = (s.reg x).toNat / 100 ∧
      (t.mem.read (s.i.toNat + 1)).toNat = (s.reg x).toNat / 10 % 10 ∧
      (t.mem.read (s.i.toNat + 2)).toNat = (s.reg x).toNat % 10 ∧
      ∀ a, a < s.i.toNat ∨ s.i.toNat + 2 < a → t.mem.read a = s.mem.read a)) ∧
    (memSize ≤ s.i.toNat + 2 → Faults (.ldB x) s .memoryBounds (some (max s.i.toNat memSize)))

/-- Fx55: `V0`..`Vx` at `I` and up, no other byte, `I <- I + x + 1` mod 2^16; past the end `MemoryBounds` (R154). -/
def Obligations.BlockStoreWritesRegisters : Prop :=
  ∀ (x : RegIdx) (s : State),
    (s.i.toNat + x.toNat < memSize → Completes (.ldMemVx x) s [] [.index, .memory] (s.pc + 2#16) {} (fun t =>
      (∀ r : RegIdx, r.toNat ≤ x.toNat → t.mem.read (s.i.toNat + r.toNat) = s.reg r) ∧
      (∀ a, a < s.i.toNat ∨ s.i.toNat + x.toNat < a → t.mem.read a = s.mem.read a) ∧
      t.i.toNat = (s.i.toNat + x.toNat + 1) % 65536)) ∧
    (memSize ≤ s.i.toNat + x.toNat → Faults (.ldMemVx x) s .memoryBounds (some (max s.i.toNat memSize)))

/-- Fx65: `V0`..`Vx` from `I` and up, memory unchanged, `I <- I + x + 1` mod 2^16; past the end `MemoryBounds` (R155). -/
def Obligations.BlockLoadReadsRegisters : Prop :=
  ∀ (x : RegIdx) (s : State),
    (s.i.toNat + x.toNat < memSize → Completes (.ldVxMem x) s (regBlock x) [.index] (s.pc + 2#16) {} (fun t =>
      (∀ r : RegIdx, r.toNat ≤ x.toNat → t.reg r = s.mem.read (s.i.toNat + r.toNat)) ∧
      (∀ r : RegIdx, x.toNat < r.toNat → t.reg r = s.reg r) ∧
      t.i.toNat = (s.i.toNat + x.toNat + 1) % 65536)) ∧
    (memSize ≤ s.i.toNat + x.toNat → Faults (.ldVxMem x) s .memoryBounds (some (max s.i.toNat memSize)))

/-- Fx55, then `I` set back and any registers overwritten, then Fx65: the registers are restored and both advance `I` alike. -/
def Obligations.StoreThenLoadRestoresRegisters : Prop :=
  ∀ (x : RegIdx) (s t u : State), s.i.toNat + x.toNat < memSize → exec (.ldMemVx x) s = .next t →
    u.mem = t.mem → u.i = s.i →
    ∃ w, exec (.ldVxMem x) u = .next w ∧ w.i = t.i ∧ ∀ r : RegIdx, r.toNat ≤ x.toNat → w.reg r = s.reg r

/-- A store is seen by the very next fetch (R61, an inference the spec marks as its own, from R57, R58 and R70): after Fx33, Fx55 or
`load_program` a core at any `PC` fetches the word of memory with the stored bytes in it, whether both, one or none of its bytes were
stored. Fx33 stores the digits of `V[x]`, Fx55 the registers `V0`..`Vx`. -/
def Obligations.FetchSeesStoredBytes : Prop :=
  ∀ (x : RegIdx) (s t : State) (pc : Word), pc.toNat + 1 < memSize →
    (s.i.toNat + 2 < memSize → exec (.ldB x) s = .next t → State.fetch { t with pc := pc } = .ok (s.wordAfterStore s.i.toNat
      [BitVec.ofNat 8 ((s.reg x).toNat / 100), BitVec.ofNat 8 ((s.reg x).toNat / 10 % 10), BitVec.ofNat 8 ((s.reg x).toNat % 10)]
      pc.toNat)) ∧
    (s.i.toNat + x.toNat < memSize → exec (.ldMemVx x) s = .next t →
      State.fetch { t with pc := pc } = .ok (s.wordAfterStore s.i.toNat ((regBlock x).map s.reg) pc.toNat)) ∧
    (∀ image, perform (.loadProgram image) s = .next (t, .done) →
      State.fetch { t with pc := pc } = .ok (s.wordAfterStore 0x200 image pc.toNat))

/-! ### Display -/

/-- 00E0: every pixel is 0 and `clear` is reported, whatever the screen held (R171). -/
def Obligations.ClearScreenZeroesPixels : Prop :=
  ∀ s : State, Completes .cls s [] [.frame] (s.pc + 2#16) { clear := true }
    (fun t => ∀ px py, px < 64 → py < 32 → t.fb.pixel px py = false)

/-- Dxyn (R172): the sprite is XORed into the pixels it covers, columns wrapping, and no other pixel changes; `VF` is the collision of
the last bit processed, or unchanged with `n = 0`; the report carries the old `V[x]`, `V[y]`; both faults come before any write,
`MemoryBounds` first. -/
def Obligations.DrawXorsSprite : Prop :=
  ∀ (x y : RegIdx) (n : Nibble) (s : State),
    ((n = 0#4 ∨ (s.i.toNat + n.toNat - 1 < memSize ∧ (s.reg y).toNat + n.toNat - 1 < 32)) →
      Completes (.drw x y n) s [0xF#4] [.frame] (s.pc + 2#16) { draw := some ⟨s.reg x, s.reg y, n⟩ } (fun t =>
        (∀ px py, px < 64 → py < 32 → t.fb.pixel px py = xor (s.fb.pixel px py)
          (spritePixel (fun k => s.mem.read (s.i.toNat + k)) (s.reg x).toNat (s.reg y).toNat n.toNat px py)) ∧
        (n = 0#4 → t.reg 0xF#4 = s.reg 0xF#4) ∧
        (n ≠ 0#4 → t.reg 0xF#4 = if (s.mem.read (s.i.toNat + n.toNat - 1)).getLsbD 0 = true ∧
          s.fb.pixel (((s.reg x).toNat + 7) % 64) ((s.reg y).toNat + n.toNat - 1) = true then 1#8 else 0#8))) ∧
    (n ≠ 0#4 → memSize ≤ s.i.toNat + n.toNat - 1 → Faults (.drw x y n) s .memoryBounds (some (max s.i.toNat memSize))) ∧
    (n ≠ 0#4 → s.i.toNat + n.toNat - 1 < memSize → 32 ≤ (s.reg y).toNat + n.toNat - 1 →
      Faults (.drw x y n) s .drawRowOutOfRange (some (max (s.reg y).toNat 32)))

/-- R173 (an inference the spec marks as its own, from R172): after a Dxyn with `n >= 1` that does not fault `VF` is the last bit's
collision; drawing the same sprite at the same place again erases it and then `VF` is 1 only if bit 0 of its last row is 1; a glyph of the
font in its reset place leaves `VF = 0` (the glyphs but A are the spec's default font, log 1). -/
def Obligations.DrawFlagIsLastBitOnly : Prop :=
  ∀ (x y : RegIdx) (n : Nibble) (s t : State), n ≠ 0#4 → s.Running → exec (.drw x y n) s = .next t → t.Running →
    let lastBit := (s.mem.read (s.i.toNat + n.toNat - 1)).getLsbD 0
    (t.reg 0xF#4 = if lastBit = true ∧ s.fb.pixel (((s.reg x).toNat + 7) % 64) ((s.reg y).toNat + n.toNat - 1) = true
      then 1#8 else 0#8) ∧
    (∀ u w, u.fb = t.fb → u.mem = t.mem → u.i = t.i → u.reg x = s.reg x → u.reg y = s.reg y → exec (.drw x y n) u = .next w →
      (∀ px py, px < 64 → py < 32 → w.fb.pixel px py = s.fb.pixel px py) ∧ (w.reg 0xF#4 = 1#8 → lastBit = true)) ∧
    ((∀ a, a < 0x50 → s.mem.read a = font.getD a 0#8) → s.i.toNat + n.toNat ≤ 80 → t.reg 0xF#4 = 0#8)

/-- The rectangle a draw report names holds every pixel the draw changed (R174). -/
def Obligations.DrawReportCoversChanges : Prop :=
  ∀ (x y : RegIdx) (n : Nibble) (s t : State) (px py : Nat), s.Running → exec (.drw x y n) s = .next t → t.Running →
    px < 64 → py < 32 → t.fb.pixel px py ≠ s.fb.pixel px py →
    ∃ d : DrawReport, t.report = some { draw := some d } ∧ d.covers px py = true

/-! ### Keys and timer -/

/-- Ex9E and ExA1 (R191, R192): with `V[x]` in 0..15 skip exactly when that key of `KEYS` is held, or is not; above 15 they raise
`KeyIndexOutOfRange` with the value. -/
def Obligations.KeyTestsReadMask : Prop :=
  ∀ (x : RegIdx) (s : State),
    ((s.reg x).toNat ≤ 15 →
      Completes (.skp x) s [] [] (if s.keys.getLsbD (s.reg x).toNat = true then s.pc + 4#16 else s.pc + 2#16) {} (fun _ => True) ∧
      Completes (.sknp x) s [] [] (if s.keys.getLsbD (s.reg x).toNat = false then s.pc + 4#16 else s.pc + 2#16) {} (fun _ => True)) ∧
    (15 < (s.reg x).toNat →
      Faults (.skp x) s .keyIndexOutOfRange (some (s.reg x).toNat) ∧ Faults (.sknp x) s .keyIndexOutOfRange (some (s.reg x).toNat))

/-- Fx07 and Fx15 move the delay timer to and from `V[x]`; the step never decrements it (R193, R195). -/
def Obligations.TimerMoves : Prop :=
  ∀ (x : RegIdx) (s : State),
    Completes (.ldVxDT x) s [x] [] (s.pc + 2#16) {} (fun t => t.reg x = s.dt) ∧
    Completes (.ldDTVx x) s [] [.timer] (s.pc + 2#16) {} (fun t => t.dt = s.reg x)

/-- Fx0A reports `wait(x)`, advances `PC` and changes nothing else (R194); Fx18 only advances `PC` (R196). -/
def Obligations.KeyWaitAndSoundTimerChangeNothing : Prop :=
  ∀ (x : RegIdx) (s : State),
    Completes (.ldVxK x) s [] [] (s.pc + 2#16) { wait := some x } (fun _ => True) ∧
    Completes (.ldST x) s [] [] (s.pc + 2#16) {} (fun _ => True)

/-- The key-wait protocol (R230): a step at Fx0A returns `wait(x)` and goes to `pc0 + 2`; the host's `resolve_wait(x, k)` puts `k` into
`V[x]`; then stepping resumes at `pc0 + 2` with nothing else changed. -/
def Obligations.KeyWaitProtocol : Prop :=
  ∀ (x : RegIdx) (k : Nibble) (s : State), s.Running → s.fetch = .ok (encode (.ldVxK x)) →
    ∃ t u, perform .step s = .next (t, .stepped (some (.ok { wait := some x }))) ∧ t.pc = s.pc + 2#16 ∧ UnchangedBut [] [] s t ∧
      perform (.resolveWait x k) t = .next (u, .done) ∧ (u.reg x).toNat = k.toNat ∧ u.pc = s.pc + 2#16 ∧ UnchangedBut [x] [] s u

/-! ### The model's result record -/

/-- A host operation other than `step` and `initialize()` leaves what the last step returned as it was, and after `initialize()` no step
has returned yet: the place of the record in State is the model's choice (log 3). -/
def Obligations.HostOperationsKeepStepReturn : Prop :=
  ∀ (op : HostOp) (s t : State) (reply : HostReply), op ≠ .step → perform op s = .next (t, reply) →
    (op ≠ .reinit → t.report = s.report ∧ t.stepReturn = s.stepReturn) ∧ (op = .reinit → t.stepReturn = none)
end

