-- ==== Sys2Proof/Laws/Decode.lean ====
section
/-! SUPPORT. The fields of a word and the words the encoder builds (30_encoding.md R77), as numbers: each field is read back, and the
fields make up the word. -/

namespace Sys2Proof

/-- Concatenation as arithmetic: the left part is the more significant (R7). -/
theorem toNat_append_eq {n m : Nat} (a : BitVec n) (b : BitVec m) : (a ++ b).toNat = a.toNat * 2 ^ m + b.toNat := by
  rw [BitVec.toNat_append, ← Nat.shiftLeft_add_eq_or_of_lt b.isLt, Nat.shiftLeft_eq]

theorem toNat_wordNNN (o : Nibble) (a : Addr12) : (wordNNN o a).toNat = o.toNat * 4096 + a.toNat :=
  toNat_append_eq o a

theorem toNat_wordXKK (o : Nibble) (x : RegIdx) (kk : Byte) : (wordXKK o x kk).toNat = o.toNat * 4096 + x.toNat * 256 + kk.toNat := by
  have h : (wordXKK o x kk).toNat = (o ++ x).toNat * 2 ^ 8 + kk.toNat := toNat_append_eq (o ++ x) kk
  rw [h, toNat_append_eq]; omega

theorem toNat_wordXYN (o : Nibble) (x y : RegIdx) (n : Nibble) :
    (wordXYN o x y n).toNat = o.toNat * 4096 + x.toNat * 256 + y.toNat * 16 + n.toNat := by
  have h : (wordXYN o x y n).toNat = (o ++ x ++ y).toNat * 2 ^ 4 + n.toNat := toNat_append_eq (o ++ x ++ y) n
  rw [h, toNat_append_eq, toNat_append_eq]; omega

theorem toNat_wordOfBytes (hi lo : Byte) : (wordOfBytes hi lo).toNat = hi.toNat * 256 + lo.toNat := toNat_append_eq hi lo

theorem toNat_family (w : Word) : (family w).toNat = w.toNat / 4096 := by
  have := w.isLt
  simp only [family, BitVec.extractLsb'_toNat, Nat.shiftRight_eq_div_pow]; omega
theorem toNat_fieldX (w : Word) : (fieldX w).toNat = w.toNat / 256 % 16 := by
  simp only [fieldX, BitVec.extractLsb'_toNat, Nat.shiftRight_eq_div_pow]
theorem toNat_fieldY (w : Word) : (fieldY w).toNat = w.toNat / 16 % 16 := by
  simp only [fieldY, BitVec.extractLsb'_toNat, Nat.shiftRight_eq_div_pow]
theorem toNat_fieldN (w : Word) : (fieldN w).toNat = w.toNat % 16 := by
  simp only [fieldN, BitVec.extractLsb'_toNat, Nat.shiftRight_eq_div_pow]; omega
theorem toNat_fieldKK (w : Word) : (fieldKK w).toNat = w.toNat % 256 := by
  simp only [fieldKK, BitVec.extractLsb'_toNat, Nat.shiftRight_eq_div_pow]; omega
theorem toNat_fieldNNN (w : Word) : (fieldNNN w).toNat = w.toNat % 4096 := by
  simp only [fieldNNN, BitVec.extractLsb'_toNat, Nat.shiftRight_eq_div_pow]; omega
theorem toNat_highByte (w : Word) : (highByte w).toNat = w.toNat / 256 := by
  have := w.isLt
  simp only [highByte, BitVec.extractLsb'_toNat, Nat.shiftRight_eq_div_pow]; omega
theorem toNat_lowByte (w : Word) : (lowByte w).toNat = w.toNat % 256 := by
  simp only [lowByte, BitVec.extractLsb'_toNat, Nat.shiftRight_eq_div_pow]; omega

@[simp] theorem family_wordNNN (o : Nibble) (a : Addr12) : family (wordNNN o a) = o := by
  apply BitVec.eq_of_toNat_eq; rw [toNat_family, toNat_wordNNN]; omega
@[simp] theorem fieldNNN_wordNNN (o : Nibble) (a : Addr12) : fieldNNN (wordNNN o a) = a := by
  apply BitVec.eq_of_toNat_eq; rw [toNat_fieldNNN, toNat_wordNNN]; omega
@[simp] theorem family_wordXKK (o : Nibble) (x : RegIdx) (kk : Byte) : family (wordXKK o x kk) = o := by
  apply BitVec.eq_of_toNat_eq; rw [toNat_family, toNat_wordXKK]; omega
@[simp] theorem fieldX_wordXKK (o : Nibble) (x : RegIdx) (kk : Byte) : fieldX (wordXKK o x kk) = x := by
  apply BitVec.eq_of_toNat_eq; rw [toNat_fieldX, toNat_wordXKK]; omega
@[simp] theorem fieldKK_wordXKK (o : Nibble) (x : RegIdx) (kk : Byte) : fieldKK (wordXKK o x kk) = kk := by
  apply BitVec.eq_of_toNat_eq; rw [toNat_fieldKK, toNat_wordXKK]; omega
@[simp] theorem family_wordXYN (o : Nibble) (x y : RegIdx) (n : Nibble) : family (wordXYN o x y n) = o := by
  apply BitVec.eq_of_toNat_eq; rw [toNat_family, toNat_wordXYN]; omega
@[simp] theorem fieldX_wordXYN (o : Nibble) (x y : RegIdx) (n : Nibble) : fieldX (wordXYN o x y n) = x := by
  apply BitVec.eq_of_toNat_eq; rw [toNat_fieldX, toNat_wordXYN]; omega
@[simp] theorem fieldY_wordXYN (o : Nibble) (x y : RegIdx) (n : Nibble) : fieldY (wordXYN o x y n) = y := by
  apply BitVec.eq_of_toNat_eq; rw [toNat_fieldY, toNat_wordXYN]; omega
@[simp] theorem fieldN_wordXYN (o : Nibble) (x y : RegIdx) (n : Nibble) : fieldN (wordXYN o x y n) = n := by
  apply BitVec.eq_of_toNat_eq; rw [toNat_fieldN, toNat_wordXYN]; omega

/-- A word is its family and its address field. -/
theorem wordNNN_fields (w : Word) : wordNNN (family w) (fieldNNN w) = w := by
  apply BitVec.eq_of_toNat_eq; rw [toNat_wordNNN, toNat_family, toNat_fieldNNN]; omega
/-- A word is its family, its field `x` and its low byte. -/
theorem wordXKK_fields (w : Word) : wordXKK (family w) (fieldX w) (fieldKK w) = w := by
  apply BitVec.eq_of_toNat_eq; rw [toNat_wordXKK, toNat_family, toNat_fieldX, toNat_fieldKK]; omega
/-- A word is its four nibbles. -/
theorem wordXYN_fields (w : Word) : wordXYN (family w) (fieldX w) (fieldY w) (fieldN w) = w := by
  apply BitVec.eq_of_toNat_eq; rw [toNat_wordXYN, toNat_family, toNat_fieldX, toNat_fieldY, toNat_fieldN]; omega
/-- A word is its two bytes (R53). -/
theorem wordOfBytes_bytes (w : Word) : wordOfBytes (highByte w) (lowByte w) = w := by
  apply BitVec.eq_of_toNat_eq; rw [toNat_wordOfBytes, toNat_highByte, toNat_lowByte]; omega
@[simp] theorem highByte_wordOfBytes (hi lo : Byte) : highByte (wordOfBytes hi lo) = hi := by
  apply BitVec.eq_of_toNat_eq; rw [toNat_highByte, toNat_wordOfBytes]; omega
@[simp] theorem lowByte_wordOfBytes (hi lo : Byte) : lowByte (wordOfBytes hi lo) = lo := by
  apply BitVec.eq_of_toNat_eq; rw [toNat_lowByte, toNat_wordOfBytes]; omega

/-! ### Masks: a field of `a AND b` is the AND of the fields -/

theorem family_and (a b : Word) : family (a &&& b) = family a &&& family b := by simp [family, BitVec.extractLsb'_and]
theorem fieldX_and (a b : Word) : fieldX (a &&& b) = fieldX a &&& fieldX b := by simp [fieldX, BitVec.extractLsb'_and]
theorem fieldY_and (a b : Word) : fieldY (a &&& b) = fieldY a &&& fieldY b := by simp [fieldY, BitVec.extractLsb'_and]
theorem fieldN_and (a b : Word) : fieldN (a &&& b) = fieldN a &&& fieldN b := by simp [fieldN, BitVec.extractLsb'_and]
theorem fieldKK_and (a b : Word) : fieldKK (a &&& b) = fieldKK a &&& fieldKK b := by simp [fieldKK, BitVec.extractLsb'_and]
theorem fieldNNN_and (a b : Word) : fieldNNN (a &&& b) = fieldNNN a &&& fieldNNN b := by simp [fieldNNN, BitVec.extractLsb'_and]

/-- Two words with the same family and address field are the same. -/
theorem word_ext_nnn {a b : Word} (h : family a = family b) (k : fieldNNN a = fieldNNN b) : a = b := by
  rw [← wordNNN_fields a, ← wordNNN_fields b, h, k]
/-- Two words with the same family, field `x` and low byte are the same. -/
theorem word_ext_xkk {a b : Word} (h : family a = family b) (i : fieldX a = fieldX b) (k : fieldKK a = fieldKK b) : a = b := by
  rw [← wordXKK_fields a, ← wordXKK_fields b, h, i, k]
/-- Two words with the same four nibbles are the same. -/
theorem word_ext_xyn {a b : Word} (h : family a = family b) (i : fieldX a = fieldX b) (j : fieldY a = fieldY b)
    (k : fieldN a = fieldN b) : a = b := by
  rw [← wordXYN_fields a, ← wordXYN_fields b, h, i, j, k]

/-- The mask 0xF000 keeps the family. -/
theorem maskFamily_eq {w m : Word} (hf : family w = family m) (hm : fieldNNN m = 0#12) : w &&& 0xF000#16 = m := by
  refine word_ext_nnn ?_ ?_
  · rw [family_and, hf]; exact BitVec.and_allOnes
  · rw [fieldNNN_and, hm]; exact BitVec.and_zero
/-- The mask 0xF00F keeps the family and the low nibble. -/
theorem maskFamilyN_eq {w m : Word} (hf : family w = family m) (hn : fieldN w = fieldN m) (hx : fieldX m = 0#4)
    (hy : fieldY m = 0#4) : w &&& 0xF00F#16 = m := by
  refine word_ext_xyn ?_ ?_ ?_ ?_
  · rw [family_and, hf]; exact BitVec.and_allOnes
  · rw [fieldX_and, hx]; exact BitVec.and_zero
  · rw [fieldY_and, hy]; exact BitVec.and_zero
  · rw [fieldN_and, hn]; exact BitVec.and_allOnes
/-- The mask 0xF0FF keeps the family and the low byte. -/
theorem maskFamilyKK_eq {w m : Word} (hf : family w = family m) (hk : fieldKK w = fieldKK m) (hx : fieldX m = 0#4) :
    w &&& 0xF0FF#16 = m := by
  refine word_ext_xkk ?_ ?_ ?_
  · rw [family_and, hf]; exact BitVec.and_allOnes
  · rw [fieldX_and, hx]; exact BitVec.and_zero
  · rw [fieldKK_and, hk]; exact BitVec.and_allOnes

end Sys2Proof
end

