-- ==== Sys2Proof/Laws/Framebuffer.lean ====
section
/-! SUPPORT. The framebuffer (43_display.md R170, R172): a pixel write, one sprite bit, one sprite row and the whole sprite, each said once. -/

namespace Sys2Proof.Machine

@[simp] theorem Framebuffer.pixel_blank (px py : Nat) : Framebuffer.blank.pixel px py = false := by
  unfold Framebuffer.pixel Framebuffer.row Framebuffer.blank
  split <;> simp

theorem Framebuffer.row_setIfInBounds (fb : Framebuffer) (row : BitVec 64) {py qy : Nat} (hy : py < 32) :
    Framebuffer.row (fb.setIfInBounds py row) qy = if qy = py then row else fb.row qy := by
  unfold Framebuffer.row
  by_cases hq : qy < 32
  · simp only [hq, dif_pos, Vector.getElem_setIfInBounds]
    by_cases h : py = qy
    · simp [h]
    · simp [h, Ne.symm h]
  · simp [hq, show qy ≠ py by omega]

/-- A pixel write is read back and leaves every other pixel alone. -/
theorem Framebuffer.pixel_setPixel (fb : Framebuffer) {px py qx qy : Nat} (b : Bool) (hx : px < 64) (hy : py < 32)
    (hqx : qx < 64) : (fb.setPixel px py b).pixel qx qy = if qx = px ∧ qy = py then b else fb.pixel qx qy := by
  unfold Framebuffer.pixel Framebuffer.setPixel
  rw [Framebuffer.row_setIfInBounds _ _ hy]
  by_cases hq : qy = py
  · subst hq
    by_cases h : px = qx
    · subst h; cases b <;> simp [hx]
    · cases b <;> simp [hqx, Ne.symm h]
  · simp [hq]

theorem spriteColumn_lt (xs j : Nat) : spriteColumn xs j < 64 := Nat.mod_lt _ (by decide)

/-- One sprite bit is XORed into its own pixel; no other pixel changes. -/
theorem pixel_drawBit (row : Byte) (xs : Nat) {py qx qy : Nat} (acc : Framebuffer × Byte) (j : Nat) (hy : py < 32) (hqx : qx < 64) :
    (drawBit row xs py acc j).1.pixel qx qy =
      xor (acc.1.pixel qx qy) (decide (qx = spriteColumn xs j ∧ qy = py) && row.getLsbD j) := by
  rw [drawBit, Framebuffer.pixel_setPixel _ _ (spriteColumn_lt xs j) hy hqx]
  by_cases h : qx = spriteColumn xs j ∧ qy = py
  · obtain ⟨rfl, rfl⟩ := h; simp
  · simp [h]

/-- `VF` after one sprite bit is that bit's collision. -/
theorem flag_drawBit (row : Byte) (xs py : Nat) (acc : Framebuffer × Byte) (j : Nat) :
    (drawBit row xs py acc j).2 = if (row.getLsbD j && acc.1.pixel (spriteColumn xs j) py) = true then 1#8 else 0#8 := rfl

/-- Column `px` is the one bit `j` goes to exactly when it lies `7 - j` columns right of the sprite's first, wrapping. -/
theorem eq_spriteColumn_iff {px xs j : Nat} (hx : px < 64) (hj : j ≤ 7) :
    px = spriteColumn xs j ↔ (px + 64 - xs % 64) % 64 = 7 - j := by
  unfold spriteColumn; omega

/-- A sprite row is XORed into the eight pixels it covers; no other pixel changes. -/
theorem pixel_drawRow (row : Byte) (xs : Nat) {py px qy : Nat} (acc : Framebuffer × Byte) (hy : py < 32) (hx : px < 64) :
    (drawRow row xs py acc).1.pixel px qy =
      xor (acc.1.pixel px qy)
        (decide (qy = py ∧ (px + 64 - xs % 64) % 64 < 8) && row.getLsbD (7 - (px + 64 - xs % 64) % 64)) := by
  have hc : ∀ j ≤ 7, (px = spriteColumn xs j) = ((px + 64 - xs % 64) % 64 = 7 - j) :=
    fun j hj => propext (eq_spriteColumn_iff hx hj)
  simp only [drawRow, List.foldl_cons, List.foldl_nil, pixel_drawBit _ _ _ _ hy hx]
  simp only [hc 0 (by decide), hc 1 (by decide), hc 2 (by decide), hc 3 (by decide), hc 4 (by decide), hc 5 (by decide),
    hc 6 (by decide), hc 7 (by decide)]
  generalize (px + 64 - xs % 64) % 64 = c
  by_cases hq : qy = py
  · by_cases hc8 : c < 8
    · interval_cases c <;> simp [hq]
    · have : ∀ k, k < 8 → c ≠ k := fun k hk => by omega
      simp [hq, hc8, this]
  · simp [hq]

/-- `VF` after a sprite row is the collision of its bit 0, the last one, with the pixel as it was before the row. -/
theorem flag_drawRow (row : Byte) (xs : Nat) {py : Nat} (acc : Framebuffer × Byte) (hy : py < 32) :
    (drawRow row xs py acc).2 = if row.getLsbD 0 = true ∧ acc.1.pixel ((xs + 7) % 64) py = true then 1#8 else 0#8 := by
  have hc : ∀ j, 1 ≤ j → j ≤ 7 → spriteColumn xs 0 ≠ spriteColumn xs j := fun j h1 h7 => by unfold spriteColumn; omega
  simp only [drawRow, List.foldl_cons, List.foldl_nil]
  rw [flag_drawBit]
  simp only [pixel_drawBit _ _ _ _ hy (spriteColumn_lt xs 0), Bool.and_eq_true]
  simp only [hc 1 (by decide) (by decide), hc 2 (by decide) (by decide), hc 3 (by decide) (by decide), hc 4 (by decide) (by decide),
    hc 5 (by decide) (by decide), hc 6 (by decide) (by decide), hc 7 (by decide) (by decide), false_and, decide_false,
    Bool.false_and, Bool.xor_false]
  rfl

theorem drawSprite_succ (rowAt : Nat → Byte) (xs ys n : Nat) (acc : Framebuffer × Byte) :
    drawSprite rowAt xs ys (n + 1) acc = drawRow (rowAt n) xs (ys + n) (drawSprite rowAt xs ys n acc) := by
  simp [drawSprite, List.range_succ]

/-- A sprite on the screen is XORed into the pixels it covers; no other pixel changes (R172). -/
theorem pixel_drawSprite (rowAt : Nat → Byte) (xs ys n : Nat) (acc : Framebuffer × Byte) {px py : Nat} (hr : ys + n ≤ 32 ∨ n = 0)
    (hx : px < 64) : (drawSprite rowAt xs ys n acc).1.pixel px py = xor (acc.1.pixel px py) (spritePixel rowAt xs ys n px py) := by
  induction n with
  | zero =>
    have : ∀ p : Prop, ¬ (ys ≤ py ∧ py < ys + 0 ∧ p) := fun p h => by omega
    simp only [spritePixel, this, decide_false, Bool.false_and, Bool.xor_false]; rfl
  | succ n ih =>
    rw [drawSprite_succ, pixel_drawRow _ _ _ (by omega) hx, ih (by omega)]
    simp only [spritePixel]
    generalize (px + 64 - xs % 64) % 64 = c
    by_cases hp : py = ys + n
    · subst hp; simp
    · have : (ys ≤ py ∧ py < ys + (n + 1) ∧ c < 8) ↔ (ys ≤ py ∧ py < ys + n ∧ c < 8) := by omega
      simp [hp, this]

/-- `VF` after a sprite of at least one row is the collision of bit 0 of its last row with the pixel as it was before (R173). -/
theorem flag_drawSprite (rowAt : Nat → Byte) (xs ys n : Nat) (acc : Framebuffer × Byte) (hn : 1 ≤ n) (hr : ys + n ≤ 32) :
    (drawSprite rowAt xs ys n acc).2 =
      if (rowAt (n - 1)).getLsbD 0 = true ∧ acc.1.pixel ((xs + 7) % 64) (ys + n - 1) = true then 1#8 else 0#8 := by
  obtain ⟨n, rfl⟩ : ∃ k, n = k + 1 := ⟨n - 1, by omega⟩
  have hs : spritePixel rowAt xs ys n ((xs + 7) % 64) (ys + n) = false := by simp [spritePixel]
  rw [drawSprite_succ, flag_drawRow _ _ _ (by omega), pixel_drawSprite _ _ _ _ _ (by omega) (Nat.mod_lt _ (by decide)), hs]
  simp [show ys + (n + 1) - 1 = ys + n by omega]

/-- With no row nothing is drawn and `VF` keeps its value (R172, D8). -/
@[simp] theorem drawSprite_zero (rowAt : Nat → Byte) (xs ys : Nat) (acc : Framebuffer × Byte) : drawSprite rowAt xs ys 0 acc = acc := rfl

/-- The row check passes exactly when every row is on the screen (R172, D6). -/
theorem firstBadRow_eq_none {ys n : Nat} : firstBadRow ys n = none ↔ n = 0 ∨ ys + n ≤ 32 := by
  unfold firstBadRow
  split
  · simp; omega
  · simp; omega

/-- Where it fails it names the first row off the screen. -/
theorem firstBadRow_eq_some {ys n r : Nat} : firstBadRow ys n = some r ↔ 1 ≤ n ∧ 32 < ys + n ∧ r = max ys 32 := by
  unfold firstBadRow
  split
  · simp only [Option.some.injEq]; omega
  · simp only [reduceCtorEq, false_iff]; omega

end Sys2Proof.Machine
end

