-- ==== Sys2Proof/Laws/Memory.lean ====
section
/-! SUPPORT. Memory (20_memory.md): a byte written is read back, every other byte is left alone, and every operation keeps the
canonical form and the range. -/

namespace Sys2Proof.Machine

/-- The parameters meet what R6 asks of them. -/
theorem params_valid : Config.paramsValid memSize stackDepth font = true := by decide

theorem memSize_ge : 4096 ≤ memSize := by decide
theorem memSize_le : memSize ≤ 65536 := by decide

@[simp] theorem Memory.read_nil (a : Nat) : Memory.read [] a = Memory.background a := rfl

theorem Memory.read_cons (c : Host.Cell) (m : Memory) (a : Nat) :
    Memory.read (c :: m) a = if a = c.1 then c.2 else m.read a := by
  cases c; rfl

/-- Past the font reset leaves zeros (R34). -/
theorem Memory.background_zero {a : Nat} (h : 0x50 ≤ a) : Memory.background a = 0#8 := by
  have hl : font.length = 80 := by decide
  simp [Memory.background, List.getD_eq_getElem?_getD, List.getElem?_eq_none (by omega : font.length ≤ a)]

theorem Memory.rising_cons {c : Host.Cell} {m : Memory} :
    Memory.rising (c :: m) = true ↔ (∀ d ∈ m, c.1 < d.1) ∧ m.rising = true := by
  obtain ⟨a, v⟩ := c
  simp [Memory.rising]

/-- An address no cell lists reads as reset left it. -/
theorem Memory.read_unlisted {m : Memory} {a : Nat} (h : ∀ d ∈ m, d.1 ≠ a) : m.read a = Memory.background a := by
  induction m with
  | nil => rfl
  | cons c m ih =>
    rw [Memory.read_cons, if_neg (h c (by simp)).symm, ih fun d hd => h d (by simp [hd])]

theorem Memory.read_filter_ne (m : Memory) {a b : Nat} (h : b ≠ a) : Memory.read (m.filter fun c => c.1 != a) b = m.read b := by
  induction m with
  | nil => rfl
  | cons c m ih =>
    by_cases hc : c.1 = a
    · rw [List.filter_cons_of_neg (by simp [hc]), ih, Memory.read_cons, if_neg (by omega)]
    · rw [List.filter_cons_of_pos (by simp [hc]), Memory.read_cons, Memory.read_cons, ih]

theorem Memory.read_insertCell_same (c : Host.Cell) {m : Memory} (h : ∀ d ∈ m, d.1 ≠ c.1) :
    Memory.read (Memory.insertCell c m) c.1 = c.2 := by
  induction m with
  | nil => simp [Memory.insertCell, Memory.read_cons]
  | cons d m ih =>
    simp only [Memory.insertCell]
    split
    · simp [Memory.read_cons]
    · rw [Memory.read_cons, if_neg (h d (by simp)).symm, ih fun e he => h e (by simp [he])]

theorem Memory.read_insertCell_ne (c : Host.Cell) (m : Memory) {b : Nat} (h : b ≠ c.1) :
    Memory.read (Memory.insertCell c m) b = m.read b := by
  induction m with
  | nil => simp [Memory.insertCell, Memory.read_cons, h]
  | cons d m ih =>
    simp only [Memory.insertCell]
    split
    · rw [Memory.read_cons, if_neg h]
    · rw [Memory.read_cons, Memory.read_cons, ih]

/-- A byte written is read back. -/
theorem Memory.read_write_same (m : Memory) (a : Nat) (v : Byte) : Memory.read (m.write a v) a = v := by
  have h : ∀ d ∈ m.filter (fun c => c.1 != a), d.1 ≠ a := by simp
  simp only [Memory.write]
  split
  · rw [Memory.read_unlisted h]; exact Eq.symm ‹_›
  · exact Memory.read_insertCell_same (a, v) h

/-- A write leaves every other byte alone. -/
theorem Memory.read_write_ne (m : Memory) {a b : Nat} (v : Byte) (h : b ≠ a) : Memory.read (m.write a v) b = m.read b := by
  simp only [Memory.write]
  split
  · exact Memory.read_filter_ne m h
  · rw [Memory.read_insertCell_ne (a, v) _ h, Memory.read_filter_ne m h]

theorem Memory.mem_insertCell {c d : Host.Cell} {m : Memory} (h : d ∈ Memory.insertCell c m) : d = c ∨ d ∈ m := by
  induction m with
  | nil => exact .inl (by simpa [Memory.insertCell] using h)
  | cons e m ih =>
    simp only [Memory.insertCell] at h
    split at h
    · exact List.mem_cons.1 h
    · rcases List.mem_cons.1 h with rfl | h
      · exact .inr (by simp)
      · exact (ih h).imp_right fun h => by simp [h]

/-- A write lists no cell but the written one that was not listed before. -/
theorem Memory.mem_write {m : Memory} {a : Nat} {v : Byte} {c : Host.Cell} (h : c ∈ m.write a v) :
    (c = (a, v) ∧ v ≠ Memory.background a) ∨ c ∈ m := by
  simp only [Memory.write] at h
  split at h
  · exact .inr (List.mem_filter.1 h).1
  · rcases Memory.mem_insertCell h with rfl | h
    · exact .inl ⟨rfl, ‹_›⟩
    · exact .inr (List.mem_filter.1 h).1

theorem Memory.rising_filter {m : Memory} (h : m.rising = true) (p : Host.Cell → Bool) : Memory.rising (m.filter p) = true := by
  induction m with
  | nil => rfl
  | cons c m ih =>
    obtain ⟨hc, hm⟩ := Memory.rising_cons.1 h
    cases hp : p c with
    | false => rw [List.filter_cons_of_neg (by simp [hp])]; exact ih hm
    | true =>
      rw [List.filter_cons_of_pos hp]
      exact Memory.rising_cons.2 ⟨fun d hd => hc d (List.mem_filter.1 hd).1, ih hm⟩

theorem Memory.rising_insertCell {c : Host.Cell} {m : Memory} (hc : ∀ d ∈ m, d.1 ≠ c.1) (h : m.rising = true) :
    (Memory.insertCell c m).rising = true := by
  induction m with
  | nil => rfl
  | cons d m ih =>
    obtain ⟨hd, hm⟩ := Memory.rising_cons.1 h
    simp only [Memory.insertCell]
    split
    · refine Memory.rising_cons.2 ⟨fun e he => ?_, h⟩
      rcases List.mem_cons.1 he with rfl | he
      · assumption
      · exact Nat.lt_trans ‹_› (hd e he)
    · refine Memory.rising_cons.2 ⟨fun e he => ?_, ih (fun e he => hc e (by simp [he])) hm⟩
      rcases Memory.mem_insertCell he with rfl | he
      · have := hc d (by simp); omega
      · exact hd e he

theorem Memory.rising_write {m : Memory} (h : m.rising = true) (a : Nat) (v : Byte) : (m.write a v).rising = true := by
  simp only [Memory.write]
  split
  · exact Memory.rising_filter h _
  · exact Memory.rising_insertCell (by simp) (Memory.rising_filter h _)

theorem Memory.wf_iff {m : Memory} : m.wf = true ↔ m.rising = true ∧ ∀ c ∈ m, c.2 ≠ Memory.background c.1 := by
  simp [Memory.wf]

theorem Memory.inRange_iff {m : Memory} : m.inRange = true ↔ ∀ c ∈ m, c.1 < memSize := by
  simp [Memory.inRange]

/-- A write keeps the canonical form. -/
theorem Memory.wf_write {m : Memory} (h : m.wf = true) (a : Nat) (v : Byte) : (m.write a v).wf = true := by
  rw [Memory.wf_iff] at *
  refine ⟨Memory.rising_write h.1 a v, fun c hc => ?_⟩
  rcases Memory.mem_write hc with ⟨rfl, hv⟩ | hc
  · exact hv
  · exact h.2 c hc

/-- A write below `MEM_SIZE` keeps every listed address below it. -/
theorem Memory.inRange_write {m : Memory} (h : m.inRange = true) {a : Nat} (ha : a < memSize) (v : Byte) :
    (m.write a v).inRange = true := by
  rw [Memory.inRange_iff] at *
  intro c hc
  rcases Memory.mem_write hc with ⟨rfl, -⟩ | hc
  · exact ha
  · exact h c hc

/-- Writing bytes keeps the canonical form. -/
theorem Memory.wf_writeBytes {m : Memory} (h : m.wf = true) (a : Nat) (vs : List Byte) : (m.writeBytes a vs).wf = true := by
  induction vs generalizing m a with
  | nil => exact h
  | cons v vs ih => exact ih (Memory.wf_write h a v) (a + 1)

/-- Writing bytes below `MEM_SIZE` keeps every listed address below it. -/
theorem Memory.inRange_writeBytes {m : Memory} (h : m.inRange = true) {a : Nat} {vs : List Byte} (ha : a + vs.length ≤ memSize) :
    (m.writeBytes a vs).inRange = true := by
  induction vs generalizing m a with
  | nil => exact h
  | cons v vs ih =>
    rw [List.length_cons] at ha
    exact ih (Memory.inRange_write h (by omega) v) (by omega)

/-- Writing bytes leaves every byte outside them alone. -/
theorem Memory.read_writeBytes_outside (m : Memory) {a b : Nat} {vs : List Byte} (h : b < a ∨ a + vs.length ≤ b) :
    (m.writeBytes a vs).read b = m.read b := by
  induction vs generalizing m a with
  | nil => rfl
  | cons v vs ih =>
    rw [List.length_cons] at h
    rw [Memory.writeBytes, ih _ (by omega), Memory.read_write_ne _ _ (by omega)]

/-- Bytes written are read back, at their places. -/
theorem Memory.read_writeBytes_inside (m : Memory) (a : Nat) (vs : List Byte) (k : Nat) (hk : k < vs.length) :
    (m.writeBytes a vs).read (a + k) = vs[k] := by
  induction vs generalizing m a k with
  | nil => simp at hk
  | cons v vs ih =>
    cases k with
    | zero =>
      rw [Memory.writeBytes, Memory.read_writeBytes_outside _ (.inl (by omega))]
      exact Memory.read_write_same m a v
    | succ k =>
      rw [Memory.writeBytes, show a + (k + 1) = (a + 1) + k by omega]
      exact ih _ (a + 1) k (by simpa using hk)

/-- The bounds check passes exactly when every address of the access exists (R55). -/
theorem firstOutOfRange_eq_none {base len : Nat} : firstOutOfRange base len = none ↔ len = 0 ∨ base + len ≤ memSize := by
  have := memSize_ge
  unfold firstOutOfRange
  split
  · simp; omega
  · simp; omega

/-- Where it fails it names the smallest address out of range (R55). -/
theorem firstOutOfRange_eq_some {base len a : Nat} :
    firstOutOfRange base len = some a ↔ 1 ≤ len ∧ memSize < base + len ∧ a = max base memSize := by
  unfold firstOutOfRange
  split
  · simp only [Option.some.injEq]; omega
  · simp only [reduceCtorEq, false_iff]; omega

end Sys2Proof.Machine
end

