-- ==== Sys2Proof/Laws/State.lean ====
section
/-! SUPPORT. One lemma per field of State per update of Ops.lean and HostOps.lean, so that no proof unfolds a record update. -/

namespace Sys2Proof.Machine

/-! ### `State.advance` -/

@[simp] theorem State.advance_v (s : State) : s.advance.v = s.v := rfl
@[simp] theorem State.advance_i (s : State) : s.advance.i = s.i := rfl
@[simp] theorem State.advance_pc (s : State) : s.advance.pc = s.pc + 2#16 := rfl
@[simp] theorem State.advance_stack (s : State) : s.advance.stack = s.stack := rfl
@[simp] theorem State.advance_dt (s : State) : s.advance.dt = s.dt := rfl
@[simp] theorem State.advance_keys (s : State) : s.advance.keys = s.keys := rfl
@[simp] theorem State.advance_mem (s : State) : s.advance.mem = s.mem := rfl
@[simp] theorem State.advance_fb (s : State) : s.advance.fb = s.fb := rfl
@[simp] theorem State.advance_status (s : State) : s.advance.status = s.status := rfl
@[simp] theorem State.advance_report (s : State) : s.advance.report = some {} := rfl
@[simp] theorem State.advance_draws (s : State) : s.advance.draws = s.draws := rfl

/-! ### `State.reporting` -/

@[simp] theorem State.reporting_v (s : State) (r : Report) : (s.reporting r).v = s.v := rfl
@[simp] theorem State.reporting_i (s : State) (r : Report) : (s.reporting r).i = s.i := rfl
@[simp] theorem State.reporting_pc (s : State) (r : Report) : (s.reporting r).pc = s.pc := rfl
@[simp] theorem State.reporting_stack (s : State) (r : Report) : (s.reporting r).stack = s.stack := rfl
@[simp] theorem State.reporting_dt (s : State) (r : Report) : (s.reporting r).dt = s.dt := rfl
@[simp] theorem State.reporting_keys (s : State) (r : Report) : (s.reporting r).keys = s.keys := rfl
@[simp] theorem State.reporting_mem (s : State) (r : Report) : (s.reporting r).mem = s.mem := rfl
@[simp] theorem State.reporting_fb (s : State) (r : Report) : (s.reporting r).fb = s.fb := rfl
@[simp] theorem State.reporting_status (s : State) (r : Report) : (s.reporting r).status = s.status := rfl
@[simp] theorem State.reporting_report (s : State) (r : Report) : (s.reporting r).report = some r := rfl
@[simp] theorem State.reporting_draws (s : State) (r : Report) : (s.reporting r).draws = s.draws := rfl

/-! ### `State.takeFault` -/

@[simp] theorem State.takeFault_v (s : State) (k : FaultKind) (w : Option Word) (a : Option Nat) : (s.takeFault k w a).v = s.v := rfl
@[simp] theorem State.takeFault_i (s : State) (k : FaultKind) (w : Option Word) (a : Option Nat) : (s.takeFault k w a).i = s.i := rfl
@[simp] theorem State.takeFault_pc (s : State) (k : FaultKind) (w : Option Word) (a : Option Nat) : (s.takeFault k w a).pc = s.pc := rfl
@[simp] theorem State.takeFault_stack (s : State) (k : FaultKind) (w : Option Word) (a : Option Nat) : (s.takeFault k w a).stack = s.stack := rfl
@[simp] theorem State.takeFault_dt (s : State) (k : FaultKind) (w : Option Word) (a : Option Nat) : (s.takeFault k w a).dt = s.dt := rfl
@[simp] theorem State.takeFault_keys (s : State) (k : FaultKind) (w : Option Word) (a : Option Nat) : (s.takeFault k w a).keys = s.keys := rfl
@[simp] theorem State.takeFault_mem (s : State) (k : FaultKind) (w : Option Word) (a : Option Nat) : (s.takeFault k w a).mem = s.mem := rfl
@[simp] theorem State.takeFault_fb (s : State) (k : FaultKind) (w : Option Word) (a : Option Nat) : (s.takeFault k w a).fb = s.fb := rfl
@[simp] theorem State.takeFault_status (s : State) (k : FaultKind) (w : Option Word) (a : Option Nat) : (s.takeFault k w a).status = .faulted ⟨k, s.pc, w, a⟩ := rfl
@[simp] theorem State.takeFault_report (s : State) (k : FaultKind) (w : Option Word) (a : Option Nat) : (s.takeFault k w a).report = none := rfl
@[simp] theorem State.takeFault_draws (s : State) (k : FaultKind) (w : Option Word) (a : Option Nat) : (s.takeFault k w a).draws = s.draws := rfl

/-! ### `State.setReg` -/

@[simp] theorem State.setReg_i (s : State) (r : RegIdx) (b : Byte) : (s.setReg r b).i = s.i := rfl
@[simp] theorem State.setReg_pc (s : State) (r : RegIdx) (b : Byte) : (s.setReg r b).pc = s.pc := rfl
@[simp] theorem State.setReg_stack (s : State) (r : RegIdx) (b : Byte) : (s.setReg r b).stack = s.stack := rfl
@[simp] theorem State.setReg_dt (s : State) (r : RegIdx) (b : Byte) : (s.setReg r b).dt = s.dt := rfl
@[simp] theorem State.setReg_keys (s : State) (r : RegIdx) (b : Byte) : (s.setReg r b).keys = s.keys := rfl
@[simp] theorem State.setReg_mem (s : State) (r : RegIdx) (b : Byte) : (s.setReg r b).mem = s.mem := rfl
@[simp] theorem State.setReg_fb (s : State) (r : RegIdx) (b : Byte) : (s.setReg r b).fb = s.fb := rfl
@[simp] theorem State.setReg_status (s : State) (r : RegIdx) (b : Byte) : (s.setReg r b).status = s.status := rfl
@[simp] theorem State.setReg_report (s : State) (r : RegIdx) (b : Byte) : (s.setReg r b).report = s.report := rfl
@[simp] theorem State.setReg_draws (s : State) (r : RegIdx) (b : Byte) : (s.setReg r b).draws = s.draws := rfl

/-! ### `State.setRegFlag` -/

@[simp] theorem State.setRegFlag_i (s : State) (r : RegIdx) (b c : Byte) : (s.setRegFlag r b c).i = s.i := rfl
@[simp] theorem State.setRegFlag_pc (s : State) (r : RegIdx) (b c : Byte) : (s.setRegFlag r b c).pc = s.pc := rfl
@[simp] theorem State.setRegFlag_stack (s : State) (r : RegIdx) (b c : Byte) : (s.setRegFlag r b c).stack = s.stack := rfl
@[simp] theorem State.setRegFlag_dt (s : State) (r : RegIdx) (b c : Byte) : (s.setRegFlag r b c).dt = s.dt := rfl
@[simp] theorem State.setRegFlag_keys (s : State) (r : RegIdx) (b c : Byte) : (s.setRegFlag r b c).keys = s.keys := rfl
@[simp] theorem State.setRegFlag_mem (s : State) (r : RegIdx) (b c : Byte) : (s.setRegFlag r b c).mem = s.mem := rfl
@[simp] theorem State.setRegFlag_fb (s : State) (r : RegIdx) (b c : Byte) : (s.setRegFlag r b c).fb = s.fb := rfl
@[simp] theorem State.setRegFlag_status (s : State) (r : RegIdx) (b c : Byte) : (s.setRegFlag r b c).status = s.status := rfl
@[simp] theorem State.setRegFlag_report (s : State) (r : RegIdx) (b c : Byte) : (s.setRegFlag r b c).report = s.report := rfl
@[simp] theorem State.setRegFlag_draws (s : State) (r : RegIdx) (b c : Byte) : (s.setRegFlag r b c).draws = s.draws := rfl

/-! ### `State.skipIf` -/

@[simp] theorem State.skipIf_v (s : State) (c : Bool) : (s.skipIf c).v = s.v := by cases c <;> rfl
@[simp] theorem State.skipIf_i (s : State) (c : Bool) : (s.skipIf c).i = s.i := by cases c <;> rfl
@[simp] theorem State.skipIf_pc (s : State) (c : Bool) : (s.skipIf c).pc = if c then s.pc + 2#16 else s.pc := by cases c <;> rfl
@[simp] theorem State.skipIf_stack (s : State) (c : Bool) : (s.skipIf c).stack = s.stack := by cases c <;> rfl
@[simp] theorem State.skipIf_dt (s : State) (c : Bool) : (s.skipIf c).dt = s.dt := by cases c <;> rfl
@[simp] theorem State.skipIf_keys (s : State) (c : Bool) : (s.skipIf c).keys = s.keys := by cases c <;> rfl
@[simp] theorem State.skipIf_mem (s : State) (c : Bool) : (s.skipIf c).mem = s.mem := by cases c <;> rfl
@[simp] theorem State.skipIf_fb (s : State) (c : Bool) : (s.skipIf c).fb = s.fb := by cases c <;> rfl
@[simp] theorem State.skipIf_status (s : State) (c : Bool) : (s.skipIf c).status = s.status := by cases c <;> rfl
@[simp] theorem State.skipIf_report (s : State) (c : Bool) : (s.skipIf c).report = s.report := by cases c <;> rfl
@[simp] theorem State.skipIf_draws (s : State) (c : Bool) : (s.skipIf c).draws = s.draws := by cases c <;> rfl

/-! ### `State.drawByte` -/

@[simp] theorem State.drawByte_v (s : State) : s.drawByte.2.v = s.v := rfl
@[simp] theorem State.drawByte_i (s : State) : s.drawByte.2.i = s.i := rfl
@[simp] theorem State.drawByte_pc (s : State) : s.drawByte.2.pc = s.pc := rfl
@[simp] theorem State.drawByte_stack (s : State) : s.drawByte.2.stack = s.stack := rfl
@[simp] theorem State.drawByte_dt (s : State) : s.drawByte.2.dt = s.dt := rfl
@[simp] theorem State.drawByte_keys (s : State) : s.drawByte.2.keys = s.keys := rfl
@[simp] theorem State.drawByte_mem (s : State) : s.drawByte.2.mem = s.mem := rfl
@[simp] theorem State.drawByte_fb (s : State) : s.drawByte.2.fb = s.fb := rfl
@[simp] theorem State.drawByte_status (s : State) : s.drawByte.2.status = s.status := rfl
@[simp] theorem State.drawByte_report (s : State) : s.drawByte.2.report = s.report := rfl
@[simp] theorem State.drawByte_draws (s : State) : s.drawByte.2.draws = s.draws + 1 := rfl

@[simp] theorem State.drawByte_byte (s : State) : s.drawByte.1 = Config.randomByte s.draws := rfl

end Sys2Proof.Machine
end

