-- ==== Sys2Proof/Laws/Regs.lean ====
section
/-! SUPPORT. Register access (10_state.md R21): a write is read back, leaves every other register alone, and the flag write comes last. -/

namespace Sys2Proof.Machine

theorem regIdx_toNat_ne {r q : RegIdx} (h : r ≠ q) : r.toNat ≠ q.toNat := fun e => h (BitVec.eq_of_toNat_eq e)

@[simp] theorem State.reg_setReg_same (s : State) (r : RegIdx) (b : Byte) : (s.setReg r b).reg r = b := by
  simp [State.reg, State.setReg]

theorem State.reg_setReg_ne (s : State) {r q : RegIdx} (b : Byte) (h : q ≠ r) : (s.setReg r b).reg q = s.reg q := by
  simp only [State.reg, State.setReg]
  exact Vector.getElem_set_ne _ _ (regIdx_toNat_ne h.symm)

theorem State.reg_setReg (s : State) (r q : RegIdx) (b : Byte) : (s.setReg r b).reg q = if q = r then b else s.reg q := by
  split
  · subst_vars; simp
  · exact State.reg_setReg_ne s b ‹_›

theorem State.reg_setRegFlag (s : State) (r q : RegIdx) (b c : Byte) :
    (s.setRegFlag r b c).reg q = if q = flagReg then c else if q = r then b else s.reg q := by
  simp only [State.setRegFlag, State.reg_setReg]

/-- Two states with the same registers agree on every reading, and conversely. -/
theorem State.v_ext {s t : State} (h : ∀ r, s.reg r = t.reg r) : s.v = t.v := by
  refine Vector.ext fun k hk => ?_
  have := h (BitVec.ofNat 4 k)
  simpa [State.reg, Nat.mod_eq_of_lt (show k < 16 from hk)] using this

/-- A reading depends on the register file alone. -/
theorem State.reg_congr {s t : State} (h : s.v = t.v) (r : RegIdx) : s.reg r = t.reg r := by simp [State.reg, h]

@[simp] theorem State.reg_advance (s : State) (r : RegIdx) : s.advance.reg r = s.reg r := rfl
@[simp] theorem State.reg_reporting (s : State) (p : Report) (r : RegIdx) : (s.reporting p).reg r = s.reg r := rfl
@[simp] theorem State.reg_takeFault (s : State) (k : FaultKind) (w : Option Word) (a : Option Nat) (r : RegIdx) :
    (s.takeFault k w a).reg r = s.reg r := rfl
@[simp] theorem State.reg_drawByte (s : State) (r : RegIdx) : s.drawByte.2.reg r = s.reg r := rfl
@[simp] theorem State.reg_skipIf (s : State) (c : Bool) (r : RegIdx) : (s.skipIf c).reg r = s.reg r := by cases c <;> rfl

/-- The bytes Fx55 stores are the registers `V0`..`Vx`. -/
theorem State.block_length (s : State) (x : RegIdx) : (s.block x).length = blockLength x := by
  have h : x.toNat < 16 := x.isLt
  simp [State.block, blockLength]; omega

theorem State.block_getElem (s : State) (x r : RegIdx) (h : r.toNat < (s.block x).length) : (s.block x)[r.toNat] = s.reg r := by
  simp [State.block, State.reg]

/-- What Fx65's loop leaves in register `k`: the byte at `base + k` for `k <= x`, else what it held. -/
theorem loadBlock_getElem (v : Vector Byte 16) (m : Memory) (base : Nat) (x : RegIdx) (k : Nat) (hk : k < 16) :
    (loadBlock v m base x)[k] = if k ≤ x.toNat then m.read (base + k) else v[k] := by
  have key : ∀ n, ((List.range n).foldl (fun v k => v.setIfInBounds k (m.read (base + k))) v)[k]
      = if k < n then m.read (base + k) else v[k] := by
    intro n
    induction n with
    | zero => simp
    | succ n ih =>
      rw [List.range_succ, List.foldl_append, List.foldl_cons, List.foldl_nil, Vector.getElem_setIfInBounds, ih]
      by_cases h : n = k
      · subst h; simp
      · have : k < n + 1 ↔ k < n := by omega
        simp [h, this]
  rw [loadBlock, key]
  simp only [blockLength, Nat.lt_succ_iff]

end Sys2Proof.Machine
end

