-- ==== Sys2Proof/Laws/Frames.lean ====
section
/-! SUPPORT. Frames: what each shared operation leaves unchanged, said once, and how frames combine. -/

namespace Sys2Proof.Machine

theorem UnchangedBut.refl (rs : List RegIdx) (ps : List Part) (s : State) : UnchangedBut rs ps s s := by
  constructor <;> intros <;> rfl

theorem UnchangedBut.trans {rs : List RegIdx} {ps : List Part} {s t u : State} (h : UnchangedBut rs ps s t)
    (k : UnchangedBut rs ps t u) : UnchangedBut rs ps s u where
  regs r hr := (k.regs r hr).trans (h.regs r hr)
  index hp := (k.index hp).trans (h.index hp)
  stack hp := (k.stack hp).trans (h.stack hp)
  timer hp := (k.timer hp).trans (h.timer hp)
  keys hp := (k.keys hp).trans (h.keys hp)
  memory hp a := (k.memory hp a).trans (h.memory hp a)
  frame hp px py hx hy := (k.frame hp px py hx hy).trans (h.frame hp px py hx hy)
  status hp := (k.status hp).trans (h.status hp)
  draws hp := (k.draws hp).trans (h.draws hp)

/-- A frame that names more may change more. -/
theorem UnchangedBut.mono {rs rs' : List RegIdx} {ps ps' : List Part} {s t : State} (h : UnchangedBut rs ps s t)
    (hr : rs ⊆ rs') (hp : ps ⊆ ps') : UnchangedBut rs' ps' s t where
  regs r h' := h.regs r fun k => h' (hr k)
  index h' := h.index fun k => h' (hp k)
  stack h' := h.stack fun k => h' (hp k)
  timer h' := h.timer fun k => h' (hp k)
  keys h' := h.keys fun k => h' (hp k)
  memory h' := h.memory fun k => h' (hp k)
  frame h' := h.frame fun k => h' (hp k)
  status h' := h.status fun k => h' (hp k)
  draws h' := h.draws fun k => h' (hp k)

/-- The start of an instruction changes `PC` and the result record only. -/
theorem unchanged_advance (s : State) : UnchangedBut [] [] s s.advance := by constructor <;> intros <;> rfl

/-- A skip changes `PC` only. -/
theorem unchanged_skipIf (s : State) (c : Bool) : UnchangedBut [] [] s (s.skipIf c) := by
  cases c <;> constructor <;> intros <;> rfl

/-- A report changes the result record only. -/
theorem unchanged_reporting (s : State) (r : Report) : UnchangedBut [] [] s (s.reporting r) := by constructor <;> intros <;> rfl

/-- A register write changes that register only. -/
theorem unchanged_setReg (s : State) (r : RegIdx) (b : Byte) : UnchangedBut [r] [] s (s.setReg r b) := by
  constructor <;> intros <;> first | rfl | exact State.reg_setReg_ne s b (by simp_all)

/-- A register and flag write changes those two only. -/
theorem unchanged_setRegFlag (s : State) (r : RegIdx) (b c : Byte) : UnchangedBut [r, flagReg] [] s (s.setRegFlag r b c) :=
  ((unchanged_setReg s r b).mono (by simp) (by simp)).trans ((unchanged_setReg _ flagReg c).mono (by simp) (by simp))

/-- Drawing a random byte changes the model's counter only. -/
theorem unchanged_drawByte (s : State) : UnchangedBut [] [.draws] s s.drawByte.2 := by
  constructor <;> intros <;> first | rfl | simp_all

/-- Taking a fault changes `STATUS` and the result record only (R212, R213). -/
theorem faultTaken_takeFault (s : State) (k : FaultKind) (w : Option Word) (a : Option Nat) : FaultTaken s (s.takeFault k w a) k w a := by
  refine ⟨rfl, rfl, rfl, ?_⟩
  constructor <;> intros <;> first | rfl | simp_all

/-- `raise` takes the fault, with the instruction's word in the record. -/
theorem raise_eq (s : State) (i : Instr) (k : FaultKind) (a : Option Nat) :
    s.raise i k a = .next (s.takeFault k (some (encode i)) a) := rfl

/-- The fetch answers the big-endian word when both bytes exist, else the first address that does not (R72). -/
theorem fetch_cases (s : State) :
    (s.pc.toNat + 1 < memSize ∧ s.fetch = .ok (wordOfBytes (s.mem.read s.pc.toNat) (s.mem.read (s.pc.toNat + 1)))) ∨
    (memSize ≤ s.pc.toNat + 1 ∧ s.fetch = .error (max s.pc.toNat memSize)) := by
  unfold State.fetch
  cases h : firstOutOfRange s.pc.toNat 2 with
  | none => exact .inl ⟨by have := firstOutOfRange_eq_none.1 h; omega, rfl⟩
  | some a =>
    obtain ⟨-, h1, rfl⟩ := firstOutOfRange_eq_some.1 h
    exact .inr ⟨by omega, rfl⟩

/-- The size check of `load_program`, with the load offset as a number (R254). -/
theorem imageTooLarge_eq (image : List Byte) : imageTooLarge image = decide (memSize - 0x200 < image.length) := rfl

/-- Everything a read can give after bytes are stored: the stored byte, or what stood there. -/
theorem read_writeBytes_eq (s : State) (base : Nat) (bytes : List Byte) (a : Nat) :
    (s.mem.writeBytes base bytes).read a = s.byteAfterStore base bytes a := by
  unfold State.byteAfterStore
  split
  · exact Memory.read_writeBytes_outside _ (.inl ‹_›)
  · by_cases h : a - base < bytes.length
    · have inside := Memory.read_writeBytes_inside s.mem base bytes (a - base) h
      rw [show base + (a - base) = a by omega] at inside
      rw [inside]; simp [h]
    · rw [List.getD_eq_getElem?_getD, List.getElem?_eq_none (by omega)]
      exact Memory.read_writeBytes_outside _ (.inr (by omega))

end Sys2Proof.Machine
end

