-- ==== Sys2Proof/Laws/PerInstr.lean ====
section
/-! SUPPORT. Statements made per instruction. Row: the word of a well-formed instruction lies in its row of the opcode map
(30_encoding.md R80). -/

namespace Sys2Proof.Laws.Row

/-- The word of a well-formed instruction lies in the instruction's row of R80. -/
def Statement (i : Instr) : Prop := i.wellFormed = true → rowTakes (opcodeRow i) (encode i) = true

/-- A row that excludes no word takes every word that its mask sends to its match. -/
theorem takes_of_mask {p : String} {m k w : Word} (h : w &&& k = m) : rowTakes ⟨p, m, k, []⟩ w = true := by
  simp [rowTakes, h]

theorem cls : Statement .cls := fun _ => rfl
theorem ret : Statement .ret := fun _ => rfl
theorem sys (nnn : Addr12) : Statement (.sys nnn) := fun h => by
  have h' : nnn ≠ 0x0E0#12 ∧ nnn ≠ 0x0EE#12 := by simpa [Instr.wellFormed] using h
  have hm : encode (.sys nnn) &&& 0xF000#16 = 0x0000#16 := maskFamily_eq (family_wordNNN 0x0#4 nnn) rfl
  have hn : fieldNNN (encode (.sys nnn)) = nnn := fieldNNN_wordNNN 0x0#4 nnn
  have h1 : encode (.sys nnn) ≠ 0x00E0#16 := fun e => h'.1 (by rw [← hn, e]; rfl)
  have h2 : encode (.sys nnn) ≠ 0x00EE#16 := fun e => h'.2 (by rw [← hn, e]; rfl)
  simp [rowTakes, opcodeRow, hm, h1, h2]
theorem jp (nnn : Addr12) : Statement (.jp nnn) := fun _ => takes_of_mask (maskFamily_eq (family_wordNNN ..) rfl)
theorem call (nnn : Addr12) : Statement (.call nnn) := fun _ => takes_of_mask (maskFamily_eq (family_wordNNN ..) rfl)
theorem seImm (x : RegIdx) (kk : Byte) : Statement (.seImm x kk) := fun _ => takes_of_mask (maskFamily_eq (family_wordXKK ..) rfl)
theorem sneImm (x : RegIdx) (kk : Byte) : Statement (.sneImm x kk) := fun _ => takes_of_mask (maskFamily_eq (family_wordXKK ..) rfl)
theorem seReg (x y : RegIdx) : Statement (.seReg x y) := fun _ => takes_of_mask (maskFamilyN_eq (family_wordXYN ..) (fieldN_wordXYN ..) rfl rfl)
theorem ldImm (x : RegIdx) (kk : Byte) : Statement (.ldImm x kk) := fun _ => takes_of_mask (maskFamily_eq (family_wordXKK ..) rfl)
theorem addImm (x : RegIdx) (kk : Byte) : Statement (.addImm x kk) := fun _ => takes_of_mask (maskFamily_eq (family_wordXKK ..) rfl)
theorem ldReg (x y : RegIdx) : Statement (.ldReg x y) := fun _ => takes_of_mask (maskFamilyN_eq (family_wordXYN ..) (fieldN_wordXYN ..) rfl rfl)
theorem orReg (x y : RegIdx) : Statement (.orReg x y) := fun _ => takes_of_mask (maskFamilyN_eq (family_wordXYN ..) (fieldN_wordXYN ..) rfl rfl)
theorem andReg (x y : RegIdx) : Statement (.andReg x y) := fun _ => takes_of_mask (maskFamilyN_eq (family_wordXYN ..) (fieldN_wordXYN ..) rfl rfl)
theorem xorReg (x y : RegIdx) : Statement (.xorReg x y) := fun _ => takes_of_mask (maskFamilyN_eq (family_wordXYN ..) (fieldN_wordXYN ..) rfl rfl)
theorem addReg (x y : RegIdx) : Statement (.addReg x y) := fun _ => takes_of_mask (maskFamilyN_eq (family_wordXYN ..) (fieldN_wordXYN ..) rfl rfl)
theorem subReg (x y : RegIdx) : Statement (.subReg x y) := fun _ => takes_of_mask (maskFamilyN_eq (family_wordXYN ..) (fieldN_wordXYN ..) rfl rfl)
theorem shr (x y : RegIdx) : Statement (.shr x y) := fun _ => takes_of_mask (maskFamilyN_eq (family_wordXYN ..) (fieldN_wordXYN ..) rfl rfl)
theorem subnReg (x y : RegIdx) : Statement (.subnReg x y) := fun _ => takes_of_mask (maskFamilyN_eq (family_wordXYN ..) (fieldN_wordXYN ..) rfl rfl)
theorem shl (x y : RegIdx) : Statement (.shl x y) := fun _ => takes_of_mask (maskFamilyN_eq (family_wordXYN ..) (fieldN_wordXYN ..) rfl rfl)
theorem sneReg (x y : RegIdx) : Statement (.sneReg x y) := fun _ => takes_of_mask (maskFamilyN_eq (family_wordXYN ..) (fieldN_wordXYN ..) rfl rfl)
theorem ldI (nnn : Addr12) : Statement (.ldI nnn) := fun _ => takes_of_mask (maskFamily_eq (family_wordNNN ..) rfl)
theorem jpV0 (nnn : Addr12) : Statement (.jpV0 nnn) := fun _ => takes_of_mask (maskFamily_eq (family_wordNNN ..) rfl)
theorem rnd (x : RegIdx) (kk : Byte) : Statement (.rnd x kk) := fun _ => takes_of_mask (maskFamily_eq (family_wordXKK ..) rfl)
theorem drw (x y : RegIdx) (n : Nibble) : Statement (.drw x y n) := fun _ => takes_of_mask (maskFamily_eq (family_wordXYN ..) rfl)
theorem skp (x : RegIdx) : Statement (.skp x) := fun _ => takes_of_mask (maskFamilyKK_eq (family_wordXKK ..) (fieldKK_wordXKK ..) rfl)
theorem sknp (x : RegIdx) : Statement (.sknp x) := fun _ => takes_of_mask (maskFamilyKK_eq (family_wordXKK ..) (fieldKK_wordXKK ..) rfl)
theorem ldVxDT (x : RegIdx) : Statement (.ldVxDT x) := fun _ => takes_of_mask (maskFamilyKK_eq (family_wordXKK ..) (fieldKK_wordXKK ..) rfl)
theorem ldVxK (x : RegIdx) : Statement (.ldVxK x) := fun _ => takes_of_mask (maskFamilyKK_eq (family_wordXKK ..) (fieldKK_wordXKK ..) rfl)
theorem ldDTVx (x : RegIdx) : Statement (.ldDTVx x) := fun _ => takes_of_mask (maskFamilyKK_eq (family_wordXKK ..) (fieldKK_wordXKK ..) rfl)
theorem ldST (x : RegIdx) : Statement (.ldST x) := fun _ => takes_of_mask (maskFamilyKK_eq (family_wordXKK ..) (fieldKK_wordXKK ..) rfl)
theorem addI (x : RegIdx) : Statement (.addI x) := fun _ => takes_of_mask (maskFamilyKK_eq (family_wordXKK ..) (fieldKK_wordXKK ..) rfl)
theorem ldF (x : RegIdx) : Statement (.ldF x) := fun _ => takes_of_mask (maskFamilyKK_eq (family_wordXKK ..) (fieldKK_wordXKK ..) rfl)
theorem ldB (x : RegIdx) : Statement (.ldB x) := fun _ => takes_of_mask (maskFamilyKK_eq (family_wordXKK ..) (fieldKK_wordXKK ..) rfl)
theorem ldMemVx (x : RegIdx) : Statement (.ldMemVx x) := fun _ => takes_of_mask (maskFamilyKK_eq (family_wordXKK ..) (fieldKK_wordXKK ..) rfl)
theorem ldVxMem (x : RegIdx) : Statement (.ldVxMem x) := fun _ => takes_of_mask (maskFamilyKK_eq (family_wordXKK ..) (fieldKK_wordXKK ..) rfl)

end Sys2Proof.Laws.Row
end

