-- ==== Sys2Proof/Laws/Step.lean ====
section
/-! SUPPORT. What a step can do, said once (30_encoding.md R70, 60_exceptions.md R214): it changes nothing while Faulted, takes a fault at
the fetch or at decode, or is the decoded instruction's meaning. -/

namespace Sys2Proof.Machine

/-- The four cases of a step, with their guards. -/
theorem step_cases (s : State) :
    (∃ r, s.status = .faulted r ∧ step s = .next s) ∨
    (s.Running ∧
      ((∃ a, s.fetch = .error a ∧ step s = .next (s.takeFault .memoryBounds none (some a))) ∨
       (∃ w e, s.fetch = .ok w ∧ decodeWord w = .error e ∧ step s = .next (s.takeFault .unknownInstruction (some w) none)) ∨
       (∃ w i, s.fetch = .ok w ∧ decodeWord w = .ok i ∧ step s = exec i s))) := by
  cases h : s.status with
  | faulted r => exact .inl ⟨r, rfl, by simp [step, h]⟩
  | running =>
    refine .inr ⟨h, ?_⟩
    cases hf : s.fetch with
    | error a => exact .inl ⟨a, rfl, by simp [step, h, hf]⟩
    | ok w =>
      cases hd : decodeWord w with
      | error e => exact .inr (.inl ⟨w, e, rfl, hd, by simp [step, h, hf, hd]⟩)
      | ok i => exact .inr (.inr ⟨w, i, rfl, hd, by simp [step, h, hf, hd]⟩)

end Sys2Proof.Machine
end

