-- ==== Sys2Proof/Tests/Slice0.lean ====
section
/-! SUPPORT. The model's own tests: words written out from the spec's encodings, single steps with the expected values of
spec/95_test_vectors.md (named in the comments), the ill-formed terms, and a witness for every statement that has hypotheses. -/

namespace Sys2Proof.Tests

open Sys2Proof.Machine

/-! ### Helpers -/

/-- The reset state with the word `w` at 0x200. -/
def at200 (w : Nat) : State := State.reset.withFetchWord 16 w

/-- Some registers set. -/
def withRegs (s : State) (rs : List (RegIdx × Byte)) : State := rs.foldl (fun s p => s.setReg p.1 p.2) s

/-- The state a step leads to. -/
def after (s : State) : State :=
  match step s with
  | .next t => t
  | .fault _ => s
  | .refused _ => s

/-- The state an instruction leads to. -/
def ran (i : Instr) (s : State) : State :=
  match exec i s with
  | .next t => t
  | .fault _ => s
  | .refused _ => s

/-- The bytes at `a` and up. -/
def bytesAt (s : State) (a n : Nat) : List Byte := (List.range n).map fun k => s.mem.read (a + k)

/-- The lit pixels of row `py`. -/
def litRow (s : State) (py : Nat) : List Nat := (List.range 64).filter fun px => s.fb.pixel px py

/-- The fault a step raised, if any. -/
def faultOf (s : State) : Option FaultRecord :=
  match s.status with
  | .faulted r => some r
  | .running => none

/-! ### Well-formedness: each check refuses its ill-formed term -/

theorem test_ill_formed_sys_cls : (Instr.sys 0x0E0).wellFormed = false := by decide
theorem test_ill_formed_sys_ret : (Instr.sys 0x0EE).wellFormed = false := by decide
theorem test_well_formed_sys : (Instr.sys 0x1E0).wellFormed = true := by decide

/-! ### Decoding: a word per row, from the patterns of R80 -/

theorem test_decode_family0 : decodeWord 0x00E0 = .ok .cls ∧ decodeWord 0x00EE = .ok .ret ∧ decodeWord 0x0123 = .ok (.sys 0x123) := by decide
theorem test_decode_jumps : decodeWord 0x1ABC = .ok (.jp 0xABC) ∧ decodeWord 0x2ABC = .ok (.call 0xABC) ∧
    decodeWord 0xBABC = .ok (.jpV0 0xABC) := by decide
theorem test_decode_skips : decodeWord 0x3A5C = .ok (.seImm 0xA 0x5C) ∧ decodeWord 0x4A5C = .ok (.sneImm 0xA 0x5C) ∧
    decodeWord 0x5A70 = .ok (.seReg 0xA 7) ∧ decodeWord 0x9A70 = .ok (.sneReg 0xA 7) := by decide
theorem test_decode_immediates : decodeWord 0x6A5C = .ok (.ldImm 0xA 0x5C) ∧ decodeWord 0x7A5C = .ok (.addImm 0xA 0x5C) ∧
    decodeWord 0xCA5C = .ok (.rnd 0xA 0x5C) := by decide
theorem test_decode_family8_low : decodeWord 0x8A70 = .ok (.ldReg 0xA 7) ∧ decodeWord 0x8A71 = .ok (.orReg 0xA 7) ∧
    decodeWord 0x8A72 = .ok (.andReg 0xA 7) ∧ decodeWord 0x8A73 = .ok (.xorReg 0xA 7) ∧ decodeWord 0x8A74 = .ok (.addReg 0xA 7) := by decide
theorem test_decode_family8_high : decodeWord 0x8A75 = .ok (.subReg 0xA 7) ∧ decodeWord 0x8A76 = .ok (.shr 0xA 7) ∧
    decodeWord 0x8A77 = .ok (.subnReg 0xA 7) ∧ decodeWord 0x8A7E = .ok (.shl 0xA 7) := by decide
theorem test_decode_index : decodeWord 0xAABC = .ok (.ldI 0xABC) ∧ decodeWord 0xFA1E = .ok (.addI 0xA) ∧ decodeWord 0xFA29 = .ok (.ldF 0xA) := by decide
theorem test_decode_draw : decodeWord 0xDA7C = .ok (.drw 0xA 7 0xC) := by decide
theorem test_decode_keys : decodeWord 0xEA9E = .ok (.skp 0xA) ∧ decodeWord 0xEAA1 = .ok (.sknp 0xA) := by decide
theorem test_decode_timers : decodeWord 0xFA07 = .ok (.ldVxDT 0xA) ∧ decodeWord 0xFA0A = .ok (.ldVxK 0xA) ∧
    decodeWord 0xFA15 = .ok (.ldDTVx 0xA) ∧ decodeWord 0xFA18 = .ok (.ldST 0xA) := by decide
theorem test_decode_memory : decodeWord 0xFA33 = .ok (.ldB 0xA) ∧ decodeWord 0xFA55 = .ok (.ldMemVx 0xA) ∧
    decodeWord 0xFA65 = .ok (.ldVxMem 0xA) := by decide
/-- T7 to T10: words of no row. -/
theorem test_decode_unknown : [0x800F, 0x8008, 0x8009, 0x800D, 0xE000, 0xE09F, 0xEFA2, 0xF000, 0xF019, 0xF0FF, 0xFFFF, 0x5121, 0x912F, 0x9001].all
    (fun w => decodeWord w == .error (.unknownInstruction w)) = true := by decide
/-- T11: family-0 words that are neither CLS nor RET. -/
theorem test_decode_sys : decodeWord 0x0000 = .ok (.sys 0) ∧ decodeWord 0x01E0 = .ok (.sys 0x1E0) ∧ decodeWord 0x00E1 = .ok (.sys 0x0E1) ∧
    decodeWord 0x0FFF = .ok (.sys 0xFFF) := by decide
theorem test_decode_bytes : decodeBytes [0xA1, 0x23, 0x99] = .ok (.ldI 0x123, [0x99]) ∧ decodeBytes [0xA1] = .error .truncated := by decide
theorem test_encode_words : encode (.drw 0 1 5) = 0xD015 ∧ encode (.skp 2) = 0xE29E ∧ encode (.subnReg 0 1) = 0x8017 ∧ encode (.ldI 0x300) = 0xA300 := by decide
theorem test_table_word : decodeTableWord 16 0xD015 = some (.drw 0 1 5) ∧ decodeTableWord 16 0x5001 = none := by decide
/-- R85's syntax. -/
theorem test_asm : asm (.drw 0 1 5) = "DRW V0, V1, 0x5" ∧ asm (.jpV0 0x2AF) = "JP V0, 0x2AF" := by decide

/-! ### Reset and memory -/

/-- R33, S6: glyph A, the source's own bytes. -/
theorem test_font_glyph_a : bytesAt State.reset 0x32 5 = [0xF0, 0x90, 0xF0, 0x90, 0x90] := by decide
/-- R33: the last glyph of the table, and the first byte past the font. -/
theorem test_font_end : bytesAt State.reset 0x4B 6 = [0xF0, 0x80, 0xF0, 0x80, 0x80, 0x00] := by decide
/-- R210: the codes of the fault kinds. -/
theorem test_fault_codes : [FaultKind.unsupportedInstruction, .unknownInstruction, .stackUnderflow, .stackOverflow, .memoryBounds, .drawRowOutOfRange,
    .keyIndexOutOfRange].map FaultKind.code = [1, 2, 3, 4, 5, 6, 7] := by decide
theorem test_memory_canonical : Memory.write (Memory.write (Memory.write [] 0x300 5) 0x2FF 7) 0x300 0 = [(0x2FF, 7)] := by decide
theorem test_memory_font_unlisted : Memory.write [(0, 0x12)] 0 0xF0 = [] := by decide

/-! ### Fetch and faults -/

/-- T1. -/
theorem test_fetch_big_endian : (after (at200 0xA123)).i = 0x123 ∧ (after (at200 0xA123)).pc = 0x202 := by decide
/-- T2: the last full word of memory. -/
theorem test_fetch_last_word : (after (State.withFetchWord { State.reset with pc := 0xFFE } 16 0x1200)).pc = 0x200 := by decide
/-- T3, T4, T5. -/
theorem test_fetch_bounds : [0xFFF, 0x1000, 0xFFFF].map (fun p => faultOf (after { State.reset with pc := p })) =
    [some ⟨.memoryBounds, 0xFFF, none, some 0x1000⟩, some ⟨.memoryBounds, 0x1000, none, some 0x1000⟩,
     some ⟨.memoryBounds, 0xFFFF, none, some 0xFFFF⟩] := by decide
/-- T6: an odd `PC` is legal. -/
theorem test_fetch_odd : (after (State.withFetchWord { State.reset with pc := 0x201 } 16 0x6007)).reg 0 = 7 := by decide
/-- S10. -/
theorem test_unknown_faults : faultOf (after (at200 0x5001)) = some ⟨.unknownInstruction, 0x200, some 0x5001, none⟩ ∧ (after (at200 0x5001)).pc = 0x200 := by decide
/-- T12: the fault is sticky. -/
theorem test_fault_sticky : after (after (at200 0x5001)) = after (at200 0x5001) := by decide
/-- T14: a skip goes over an illegal word. -/
theorem test_skip_over_illegal : (after { at200 0x3000 with mem := Memory.writeBytes [] 0x200 [0x30, 0x00, 0xFF, 0xFF] }).pc = 0x204 := by decide

/-! ### Control transfer (vectors C1 to C14 and the rules' examples) -/

theorem test_sys : faultOf (after (at200 0x0123)) = some ⟨.unsupportedInstruction, 0x200, some 0x0123, none⟩ := by decide
theorem test_ret_empty : faultOf (after (at200 0x00EE)) = some ⟨.stackUnderflow, 0x200, some 0x00EE, none⟩ := by decide
/-- C2: 0x30A is on top. -/
theorem test_ret : (after { at200 0x00EE with stack := [0x30A, 0x206] }).pc = 0x30A ∧ (after { at200 0x00EE with stack := [0x30A, 0x206] }).stack = [0x206] := by decide
theorem test_jp_odd : (after (at200 0x1203)).pc = 0x203 := by decide
/-- C5, C6. -/
theorem test_call : (after { at200 0x2300 with stack := List.replicate 15 0 }).stack = 0x202 :: List.replicate 15 0 ∧
    (after { at200 0x2300 with stack := List.replicate 15 0 }).pc = 0x300 := by decide
theorem test_call_full : faultOf (after { at200 0x2300 with stack := List.replicate 16 0 }) = some ⟨.stackOverflow, 0x200, some 0x2300, none⟩ := by decide
theorem test_se_imm : (after (withRegs (at200 0x3342) [(3, 0x42)])).pc = 0x204 ∧ (after (withRegs (at200 0x3342) [(3, 0x41)])).pc = 0x202 := by decide
theorem test_sne_imm : (after (withRegs (at200 0x4342) [(3, 0x41)])).pc = 0x204 ∧ (after (withRegs (at200 0x4342) [(3, 0x42)])).pc = 0x202 := by decide
theorem test_se_reg : (after (withRegs (at200 0x5120) [(1, 7), (2, 7)])).pc = 0x204 ∧ (after (withRegs (at200 0x5120) [(1, 7), (2, 8)])).pc = 0x202 := by decide
theorem test_sne_reg : (after (withRegs (at200 0x9120) [(1, 7), (2, 8)])).pc = 0x204 ∧ (after (at200 0x9110)).pc = 0x202 := by decide
/-- C11: no reduction to 12 bits. -/
theorem test_jp_v0 : (after (withRegs (at200 0xBFFF) [(0, 0xFF)])).pc = 0x10FE := by decide

/-! ### Arithmetic and logic (vectors A1 to A26) -/

theorem test_ld_imm : (after (at200 0x6F12)).reg 0xF = 0x12 := by decide
/-- A2: the carry is discarded. -/
theorem test_add_imm : (after (withRegs (at200 0x71FF) [(1, 5), (0xF, 7)])).reg 1 = 4 ∧ (after (withRegs (at200 0x71FF) [(1, 5), (0xF, 7)])).reg 0xF = 7 := by decide
/-- A3: with `x = 0xF` the sum is the destination's. -/
theorem test_add_imm_vf : (after (withRegs (at200 0x7F20) [(0xF, 0xF0)])).reg 0xF = 0x10 := by decide
theorem test_ld_reg : (after (withRegs (at200 0x8120) [(2, 0x33)])).reg 1 = 0x33 := by decide
theorem test_or : (after (withRegs (at200 0x8121) [(1, 0x0F), (2, 0xF0), (0xF, 0x55)])).reg 1 = 0xFF ∧
    (after (withRegs (at200 0x8121) [(1, 0x0F), (2, 0xF0), (0xF, 0x55)])).reg 0xF = 0x55 := by decide
theorem test_and : (after (withRegs (at200 0x8122) [(1, 0x3C), (2, 0x0F)])).reg 1 = 0x0C := by decide
theorem test_xor : (after (withRegs (at200 0x8123) [(1, 0x3C), (2, 0x0F)])).reg 1 = 0x33 := by decide
theorem test_add_reg : (after (withRegs (at200 0x8014) [(0, 0xFF), (1, 2)])).reg 0 = 1 ∧ (after (withRegs (at200 0x8014) [(0, 0xFF), (1, 2)])).reg 0xF = 1 := by decide
/-- A9: the flag overwrites the sum. -/
theorem test_add_reg_vf : (after (withRegs (at200 0x8F14) [(0xF, 0xFF), (1, 2)])).reg 0xF = 1 := by decide
/-- A12: strict at equality (C1); A14: the subtrahend is the old `VF`. -/
theorem test_sub_equal : (after (withRegs (at200 0x8125) [(1, 5), (2, 5), (0xF, 9)])).reg 0xF = 0 := by decide
theorem test_sub_vf : (after (withRegs (at200 0x81F5) [(1, 5), (0xF, 3)])).reg 1 = 2 ∧ (after (withRegs (at200 0x81F5) [(1, 5), (0xF, 3)])).reg 0xF = 1 := by decide
/-- A16, A17. -/
theorem test_shr : (after (withRegs (at200 0x8566) [(5, 5), (6, 0xFF)])).reg 5 = 2 ∧ (after (withRegs (at200 0x8566) [(5, 5), (6, 0xFF)])).reg 0xF = 1 := by decide
theorem test_shr_vf : (after (withRegs (at200 0x8F06) [(0xF, 2)])).reg 0xF = 0 := by decide
/-- A18, A19. -/
theorem test_subn_wraps : (after (withRegs (at200 0x8127) [(1, 0xA), (2, 3)])).reg 1 = 0xF9 ∧ (after (withRegs (at200 0x8127) [(1, 0xA), (2, 3)])).reg 0xF = 0 := by decide
theorem test_subn : (after (withRegs (at200 0x81F7) [(1, 3), (0xF, 0xA)])).reg 1 = 7 ∧ (after (withRegs (at200 0x81F7) [(1, 3), (0xF, 0xA)])).reg 0xF = 1 := by decide
/-- A21, A22. -/
theorem test_shl : (after (withRegs (at200 0x850E) [(5, 0x81)])).reg 5 = 2 ∧ (after (withRegs (at200 0x850E) [(5, 0x81)])).reg 0xF = 1 := by decide
theorem test_shl_vf : (after (withRegs (at200 0x8F0E) [(0xF, 0x80)])).reg 0xF = 1 := by decide
/-- R131: the register gets the masked free byte, whatever it is. -/
theorem test_rnd : (after (at200 0xC3F0)).reg 3 = Config.randomByte 0 &&& 0xF0#8 ∧ (after (at200 0xC3F0)).pc = 0x202 := ⟨rfl, rfl⟩

/-! ### Index register and memory (vectors M1 to M16) -/

theorem test_ld_i : (after (at200 0xAFFF)).i = 0xFFF := by decide
/-- M2, M3. -/
theorem test_add_i : (after (withRegs { at200 0xF11E with i := 0xFFF } [(1, 1)])).i = 0x1000 ∧ (after (withRegs { at200 0xF11E with i := 0xFFFF } [(1, 1)])).i = 0 := by decide
/-- M4: the whole byte. -/
theorem test_ld_f : (after (withRegs (at200 0xF129) [(1, 0xFF)])).i = 0x4FB := by decide
/-- S7, M10. -/
theorem test_ld_b : bytesAt (after (withRegs { at200 0xF033 with i := 0x300 } [(0, 156)])) 0x300 3 = [1, 5, 6] := by decide
theorem test_ld_b_bounds : faultOf (after (withRegs { at200 0xF233 with i := 0xFFE } [(2, 7)])) = some ⟨.memoryBounds, 0x200, some 0xF233, some 0x1000⟩ := by decide
/-- R154's example, M12. -/
theorem test_store_block : bytesAt (after (withRegs { at200 0xF355 with i := 0x300 } [(0, 1), (1, 2), (2, 3), (3, 4), (4, 5)])) 0x300 5 = [1, 2, 3, 4, 0] := by decide
theorem test_store_bounds : faultOf (after { at200 0xF155 with i := 0xFFF }) = some ⟨.memoryBounds, 0x200, some 0xF155, some 0x1000⟩ := by decide
/-- R155's example, M13. -/
theorem test_load_block :
    let t := after { at200 0xF365 with i := 0x300, mem := Memory.writeBytes (at200 0xF365).mem 0x300 [1, 2, 3, 4, 5] }
    [0, 1, 2, 3, 4].map t.reg = [1, 2, 3, 4, 0] := by decide
theorem test_load_bounds : faultOf (after { at200 0xF065 with i := 0x1000 }) = some ⟨.memoryBounds, 0x200, some 0xF065, some 0x1000⟩ := by decide

/-! ### Display (vectors G3 to G16) -/

/-- One sprite byte `b` at 0x300, `I` pointing at it, the word `w` at 0x200. -/
def sprite (w : Nat) (b : Byte) : State := { at200 w with i := 0x300, mem := Memory.write (at200 w).mem 0x300 b }

/-- G5: columns wrap. -/
theorem test_draw_wraps : litRow (after (withRegs (sprite 0xD011 0xFF) [(0, 62)])) 0 = [0, 1, 2, 3, 4, 5, 62, 63] := by decide
/-- G13: `VF` as a coordinate is read before it is written. -/
theorem test_draw_vf_coordinate : litRow (after (withRegs (sprite 0xDF01 0x80) [(0xF, 8)])) 0 = [8] ∧
    (after (withRegs (sprite 0xDF01 0x80) [(0xF, 8)])).reg 0xF = 0 := by decide
/-- G15, and G4 against it: only bit 0 shows in `VF`. -/
theorem test_draw_collision : (after { sprite 0xD011 0x01 with fb := Framebuffer.blank.setPixel 7 0 true }).reg 0xF = 1 ∧
    (after { sprite 0xD011 0x80 with fb := Framebuffer.blank.setPixel 0 0 true }).reg 0xF = 0 := by decide
/-- G7, G11. -/
theorem test_draw_row_fault : faultOf (after (withRegs (sprite 0xD013 0) [(1, 30)])) = some ⟨.drawRowOutOfRange, 0x200, some 0xD013, some 0x20⟩ := by decide
theorem test_draw_bounds_first : faultOf (after (withRegs { at200 0xD012 with i := 0xFFF } [(1, 31)])) = some ⟨.memoryBounds, 0x200, some 0xD012, some 0x1000⟩ := by decide
/-- G9, G10: `n = 0`. -/
theorem test_draw_no_rows : (after (withRegs (at200 0xD010) [(1, 40), (0xF, 0x55)])).report = some { draw := some ⟨0, 40, 0⟩ } ∧
    (after (withRegs (at200 0xD010) [(1, 40), (0xF, 0x55)])).reg 0xF = 0x55 := by decide
/-- G16. -/
theorem test_cls : litRow (after { at200 0x00E0 with fb := Vector.replicate 32 (BitVec.allOnes 64) }) 31 = [] ∧
    (after (at200 0x00E0)).report = some { clear := true } := by decide

/-! ### Keys, timer and host operations (vectors K1 to K14, S12) -/

theorem test_skp : (after (withRegs { at200 0xE29E with keys := 0x0020 } [(2, 5)])).pc = 0x204 ∧ (after (withRegs { at200 0xE29E with keys := 0xFFDF } [(2, 5)])).pc = 0x202 := by decide
theorem test_skp_bad : faultOf (after (withRegs (at200 0xE29E) [(2, 0x10)])) = some ⟨.keyIndexOutOfRange, 0x200, some 0xE29E, some 0x10⟩ := by decide
theorem test_sknp : (after (withRegs { at200 0xE2A1 with keys := 0x8000 } [(2, 15)])).pc = 0x202 ∧ (after (withRegs (at200 0xE2A1) [(2, 15)])).pc = 0x204 := by decide
theorem test_sknp_bad : faultOf (after (withRegs (at200 0xE2A1) [(2, 0xFF)])) = some ⟨.keyIndexOutOfRange, 0x200, some 0xE2A1, some 0xFF⟩ := by decide
theorem test_ld_vx_dt : (after { at200 0xF407 with dt := 0x3C }).reg 4 = 0x3C := by decide
theorem test_ld_vx_k : (after (at200 0xF30A)).report = some { wait := some 3 } ∧ (after (at200 0xF30A)).pc = 0x202 := by decide
theorem test_ld_dt_vx : (after { at200 0xF115 with dt := 5 }).dt = 0 := by decide
theorem test_ld_st : after (withRegs (at200 0xF118) [(1, 9)]) = { withRegs (at200 0xF118) [(1, 9)] with pc := 0x202, report := some {} } := by decide
/-- K11, K12, K13. -/
theorem test_tick : ({ State.reset with dt := 1 } : State).tick.dt = 0 ∧ State.reset.tick.dt = 0 ∧ ({ after (at200 0x5001) with dt := 2 } : State).tick.dt = 1 := by decide
/-- K8. -/
theorem test_resolve_wait : (State.resolveWait (after (at200 0xF30A)) 3 0xC).reg 3 = 0x0C := by decide
/-- R6: the parameters are a choice it allows. -/
theorem test_params : Config.paramsValid memSize stackDepth font = true := by decide
/-- S12. -/
theorem test_image_size : imageTooLarge (List.replicate 3585 0) = true ∧ imageTooLarge (List.replicate 3584 0) = false := by
  rw [imageTooLarge_eq, imageTooLarge_eq, List.length_replicate, List.length_replicate]; decide

/-! ### Witnesses: the hypotheses of each statement are met together, at the boundary of each clause -/

theorem witness_LoadProgramCopiesImage_fits : (List.replicate 3584 (0#8)).length ≤ memSize - 0x200 := by
  rw [List.length_replicate]; decide
theorem witness_LoadProgramCopiesImage_too_large : memSize - 0x200 < (List.replicate 3585 (0#8)).length := by
  rw [List.length_replicate]; decide
theorem witness_BootFetchesFirstImageWord : ([] : List Byte).length + 2 ≤ memSize - 0x200 ∧
    ∃ t, performAll [.reinit, .loadProgram [0x12#8, 0x00#8]] State.reset = .next t := ⟨by decide, _, rfl⟩
theorem witness_OnlyReinitLeavesFaulted : ∃ s r t p u q, State.status s = .faulted r ∧ perform .tick s = .next (t, p) ∧ HostOp.tick ≠ .reinit ∧
    perform .reinit s = .next (u, q) := ⟨after (at200 0x5001), _, _, _, _, _, rfl, rfl, by decide, rfl⟩
theorem witness_DecodeOfEncode : (Instr.sys 0x0E1).wellFormed = true ∧ (Instr.drw 0xF 0xF 0xF).wellFormed = true := by decide
theorem witness_EncodeOfDecode : decodeWord 0xDFFF#16 = .ok (.drw 0xF 0xF 0xF) := by decide
theorem witness_DecodeFollowsOpcodeMap_ok : decodeWord 0x8A7E#16 = .ok (.shl 0xA 7) ∧ rowTakes (opcodeRow (.shl 0xA 7)) 0x8A7E = true ∧
    opcodeRow (.shl 0 0) ∈ opcodeMap := by decide
theorem witness_DecodeFollowsOpcodeMap_error : ∃ e, decodeWord 0x8A7F#16 = .error e ∧ opcodeRow .cls ∈ opcodeMap := ⟨_, rfl, by decide⟩
theorem witness_StepRunsDecodedInstruction : (at200 0x6A5C).Running ∧ (at200 0x6A5C).pc.toNat + 1 < memSize ∧
    decodeBytes [(at200 0x6A5C).mem.read (at200 0x6A5C).pc.toNat, (at200 0x6A5C).mem.read ((at200 0x6A5C).pc.toNat + 1)] = .ok (.ldImm 0xA 0x5C, []) :=
  ⟨rfl, by decide, by decide⟩
theorem witness_FetchIsBigEndianAndBounded_inside : ({ State.reset with pc := 0xFFE } : State).pc.toNat + 1 < memSize := by decide
theorem witness_FetchIsBigEndianAndBounded_outside : State.Running { State.reset with pc := 0xFFF } ∧
    memSize ≤ ({ State.reset with pc := 0xFFF } : State).pc.toNat + 1 := ⟨rfl, by decide⟩
theorem witness_FaultedStepChangesNothing : (after (at200 0x5001)).status = .faulted ⟨.unknownInstruction, 0x200, some 0x5001, none⟩ := by decide
theorem witness_IllegalWordsFault_family0 : (at200 0x00EF).Running ∧ (at200 0x00EF).fetch = .ok 0x00EF#16 ∧ (0x00EF#16).toNat < 0x1000 ∧
    (0x00EF#16) ≠ 0x00E0#16 ∧ (0x00EF#16) ≠ 0x00EE#16 := ⟨rfl, by decide, by decide, by decide, by decide⟩
theorem witness_IllegalWordsFault_unmatched : (at200 0xFFFF).Running ∧ (at200 0xFFFF).fetch = .ok 0xFFFF#16 ∧ illegalWord 0xFFFF = true ∧
    [0x5001, 0x900F, 0x8008, 0x800F, 0xE0A0, 0xF064].all (fun w => illegalWord w) = true := ⟨rfl, by decide, by decide, by decide⟩
theorem witness_FaultsArePrecise_execute : ∃ t r, (at200 0x00EE).Running ∧ step (at200 0x00EE) = .next t ∧ t.status = .faulted r := ⟨_, _, rfl, rfl, rfl⟩
theorem witness_FaultsArePrecise_fetch : ∃ t r, State.Running { State.reset with pc := 0xFFF } ∧ step { State.reset with pc := 0xFFF } = .next t ∧
    t.status = .faulted r := ⟨_, _, rfl, rfl, rfl⟩
theorem witness_FaultsArePrecise_host : ∃ t r u reply, (at200 0x00EE).Running ∧ step (at200 0x00EE) = .next t ∧ t.status = .faulted r ∧
    HostOp.tick ≠ .reinit ∧ perform .tick t = .next (u, reply) := ⟨_, _, _, _, rfl, rfl, rfl, by decide, rfl⟩
theorem witness_FaultKindsOfInstructions : ∃ t r, State.reset.Running ∧ exec .ret State.reset = .next t ∧ t.status = .faulted r := ⟨_, _, rfl, rfl, rfl⟩
/-- A state that meets the invariant with a listed byte, a stack entry and a report, and steps to another. -/
theorem witness_StepKeepsInvariant : ∃ s t : State, s.Inv ∧ step s = .next t ∧ s.mem ≠ [] ∧ s.stack ≠ [] ∧ s.report ≠ none := by
  refine ⟨{ at200 0xF355 with stack := [0x206], report := some { clear := true } }, _, ⟨by decide, by decide, by decide, ?_, ?_⟩, rfl,
    by decide, by decide, by decide⟩
  · intro r h; cases h; decide
  · intro r h; cases h
theorem witness_HostSequencesKeepInvariant : ∃ s t : State, s.Inv ∧ performAll [.tick, .step, .setKeys 7, .resolveWait 3 0xF] s = .next t := by
  refine ⟨{ at200 0xF30A with dt := 1 }, _, ⟨by decide, by decide, by decide, ?_, ?_⟩, rfl⟩
  · intro r h; cases h
  · intro r h; cases h
/-- For the statements over all instructions: a Running state, an instruction, a Running next state; the register of the third clause. -/
theorem witness_InstructionsRun : ∃ t, State.reset.Running ∧ exec (.ldImm 3 5) State.reset = .next t ∧ t.Running ∧
    (3 : RegIdx) ∉ regsRead (.ldImm 3 5) ∧ (3 : RegIdx) ∈ regsWritten (.ldImm 3 5) := ⟨_, rfl, rfl, rfl, by decide, by decide⟩
/-- An address outside the stored bytes on either side of them, and one inside. -/
theorem witness_InstructionsWriteOnlyTheirState : let s : State := { State.reset with i := 0x300 }
    (∃ t, s.Running ∧ exec (.ldB 3) s = .next t ∧ t.Running) ∧ (∃ t, exec (.ldMemVx 2) s = .next t ∧ t.Running) ∧
    0x2FF ∉ bytesWritten (.ldB 3) s ∧ 0x302 ∈ bytesWritten (.ldB 3) s ∧ 0x303 ∉ bytesWritten (.ldB 3) s ∧
    0x302 ∈ bytesWritten (.ldMemVx 2) s ∧ 0x303 ∉ bytesWritten (.ldMemVx 2) s :=
  ⟨⟨_, rfl, rfl, rfl⟩, ⟨_, rfl, rfl⟩, by decide, by decide, by decide, by decide, by decide⟩
theorem witness_InputsReadOnlyByTheirInstructions : ∃ t, State.reset.Running ∧ exec .cls State.reset = .next t ∧ t.Running ∧
    (∀ x, Instr.cls ≠ .skp x ∧ Instr.cls ≠ .sknp x) ∧ (∀ x, Instr.cls ≠ .ldVxDT x) ∧ (∀ x, Instr.cls ≠ .ldDTVx x) ∧ (∀ x kk, Instr.cls ≠ .rnd x kk) :=
  ⟨_, rfl, rfl, rfl, by simp, by simp, by simp, by simp⟩
theorem witness_IdleStepChangesNothing : (at200 0x1200).Idle := ⟨rfl, 0x200, by decide, by decide⟩
theorem witness_CallPushesReturnAddress : ({ State.reset with stack := List.replicate 15 0 } : State).stack.length < stackDepth ∧
    ({ State.reset with stack := List.replicate 16 0 } : State).stack.length = stackDepth := by decide
theorem witness_ReturnPopsStack : ({ State.reset with stack := [0x206] } : State).stack = 0x206 :: [] ∧ State.reset.stack = [] := by decide
theorem witness_CallThenReturn : ∃ t, State.reset.stack.length < stackDepth ∧ exec (.call 0x300) State.reset = .next t := ⟨_, by decide, rfl⟩
theorem witness_flag_clauses : (0xE#4 : RegIdx) ≠ 0xF#4 := by decide
/-- `Fx29` of glyph A fetched and run at 0x200, the font in place: `exec`'s hypotheses are met where a step runs it. -/
theorem witness_GlyphAddressedByIndex : let s := withRegs (at200 0xF029) [(0, 0x0A)]
    (∀ a, a < 0x50 → s.mem.read a = font.getD a 0#8) ∧ (s.reg 0).toNat < 16 ∧ s.reg 0 = 0x0A#8 ∧ step s = exec (.ldF 0) s ∧
    ∃ t, exec (.ldF 0) s = .next t := ⟨by decide, by decide, by decide, rfl, _, rfl⟩
theorem witness_GlyphAddressedByIndex_last : ((withRegs (at200 0xF029) [(0, 0x0F)]).reg 0).toNat < 16 := by decide
theorem witness_BcdStoresDigits : ({ State.reset with i := 0xFFD } : State).i.toNat + 2 < memSize ∧ memSize ≤ ({ State.reset with i := 0xFFE } : State).i.toNat + 2 := by decide
/-- For Fx55 and Fx65 alike. -/
theorem witness_BlockTransfers : ({ State.reset with i := 0xFF0 } : State).i.toNat + (15#4).toNat < memSize ∧
    memSize ≤ ({ State.reset with i := 0xFF1 } : State).i.toNat + (15#4).toNat := by decide
theorem witness_StoreThenLoadRestoresRegisters : ∃ s t u : State, s.i.toNat + (3#4).toNat < memSize ∧ exec (.ldMemVx 3) s = .next t ∧ u.mem = t.mem ∧ u.i = s.i ∧
    u.reg 0 ≠ s.reg 0 :=
  ⟨withRegs { State.reset with i := 0x300 } [(0, 0x11)], _, { ran (.ldMemVx 3) (withRegs { State.reset with i := 0x300 } [(0, 0x11)]) with v := State.reset.v, i := 0x300 },
    by decide, rfl, rfl, rfl, by decide⟩
theorem witness_FetchSeesStoredBytes_bcd : ∃ t, (0xFFE#16).toNat + 1 < memSize ∧ ({ State.reset with i := 0xFFD } : State).i.toNat + 2 < memSize ∧
    exec (.ldB 3) { State.reset with i := 0xFFD } = .next t := ⟨_, by decide, by decide, rfl⟩
theorem witness_FetchSeesStoredBytes_block : ∃ t, ({ State.reset with i := 0xFF0 } : State).i.toNat + (15#4).toNat < memSize ∧
    exec (.ldMemVx 15) { State.reset with i := 0xFF0 } = .next t := ⟨_, by decide, rfl⟩
theorem witness_FetchSeesStoredBytes_load : ∃ t, perform (.loadProgram [0x12#8]) State.reset = .next (t, .done) := ⟨_, rfl⟩
/-- Words of which only the lower or only the higher byte was stored (R53, R61, R153): after Fx33 of 156 at 0x300. -/
theorem test_fetch_half_stored :
    let t := ran (.ldB 3) (withRegs { State.reset with i := 0x300 } [(3, 156)])
    State.fetch { t with pc := 0x2FF } = .ok 0x0001 ∧ State.fetch { t with pc := 0x302 } = .ok 0x0600 := by decide
/-- The three clauses of Dxyn at their boundaries, and `n = 0`. -/
theorem witness_DrawXorsSprite_draws : let s : State := State.setReg { State.reset with i := 0xFFF } 1 31
    s.i.toNat + (1#4).toNat - 1 < memSize ∧ (s.reg 1).toNat + (1#4).toNat - 1 < 32 := by decide
theorem witness_DrawXorsSprite_bounds : (2#4) ≠ 0#4 ∧ memSize ≤ ({ State.reset with i := 0xFFF } : State).i.toNat + (2#4).toNat - 1 := by decide
theorem witness_DrawXorsSprite_rows : let s : State := State.setReg State.reset 1 31
    (2#4) ≠ 0#4 ∧ s.i.toNat + (2#4).toNat - 1 < memSize ∧ 32 ≤ (s.reg 1).toNat + (2#4).toNat - 1 := by decide
/-- A draw that a step fetches and runs at 0x200, of the font's first row, and a second one at the same place. -/
theorem witness_DrawFlagIsLastBitOnly : let s := at200 0xD011
    (∀ a, a < 0x50 → s.mem.read a = font.getD a 0#8) ∧ s.i.toNat + (1#4).toNat ≤ 80 ∧ (1#4) ≠ 0#4 ∧ s.Running ∧ step s = exec (.drw 0 1 1) s ∧
    ∃ t w, exec (.drw 0 1 1) s = .next t ∧ t.Running ∧ exec (.drw 0 1 1) t = .next w ∧ t.reg 0 = s.reg 0 ∧ t.reg 1 = s.reg 1 :=
  ⟨by decide, by decide, by decide, rfl, rfl, _, _, rfl, rfl, rfl, rfl, rfl⟩
theorem witness_DrawReportCoversChanges : ∃ t, (State.reset).Running ∧ exec (.drw 0 1 1) State.reset = .next t ∧ t.Running ∧
    t.fb.pixel 3 0 ≠ State.reset.fb.pixel 3 0 := ⟨ran (.drw 0 1 1) State.reset, rfl, rfl, rfl, by decide⟩
theorem witness_KeyTestsReadMask : ((State.setReg State.reset 2 15).reg 2).toNat ≤ 15 ∧ 15 < ((State.setReg State.reset 2 16).reg 2).toNat := by decide
theorem witness_KeyWaitProtocol : (at200 0xF30A).Running ∧ (at200 0xF30A).fetch = .ok (encode (.ldVxK 3)) := ⟨rfl, by decide⟩
theorem witness_HostOperationsKeepStepReturn : ∃ t u p q, HostOp.tick ≠ .step ∧ HostOp.tick ≠ .reinit ∧ HostOp.reinit ≠ .step ∧
    perform .tick (after (at200 0xF30A)) = .next (t, p) ∧ perform .reinit (after (at200 0xF30A)) = .next (u, q) :=
  ⟨_, _, _, _, by decide, by decide, by decide, rfl, rfl⟩

end Sys2Proof.Tests
end

/-! Rules of the state's operations (10_state.md, 43_display.md R172): repeated writes, the register block, the drawing of a sprite
on a state, and what each leaves unchanged. -/
section
namespace Sys2Proof.Machine

/-! ### Register writes -/

@[simp] theorem State.setReg_reg_self (s : State) (r : RegIdx) : s.setReg r (s.reg r) = s := by
  simp [State.setReg, State.reg]

@[simp] theorem State.setReg_setReg (s : State) (r : RegIdx) (b c : Byte) : (s.setReg r b).setReg r c = s.setReg r c := by
  simp [State.setReg, Vector.set_set]

@[simp] theorem State.advance_setReg (s : State) (r : RegIdx) (b : Byte) : (s.setReg r b).advance = s.advance.setReg r b := rfl

@[simp] theorem State.drawByte_setReg (s : State) (r : RegIdx) (b : Byte) :
    (s.setReg r b).drawByte.2 = s.drawByte.2.setReg r b := rfl

/-- A register and flag write forgets what stood in `VF`. -/
@[simp] theorem State.setRegFlag_setReg_flag (s : State) (x : RegIdx) (b c d : Byte) :
    (s.setReg flagReg b).setRegFlag x c d = s.setRegFlag x c d := by
  by_cases hx : x = flagReg
  · simp [State.setRegFlag, hx]
  · have comm : (s.setReg flagReg b).setReg x c = (s.setReg x c).setReg flagReg b := by
      simp only [State.setReg, Vector.set_comm b c (regIdx_toNat_ne (Ne.symm hx))]
    rw [State.setRegFlag, comm, State.setReg_setReg, State.setRegFlag]

/-! ### The registers `V0`..`Vx` -/

/-- The registers `V0`..`Vx` are those whose index is at most `x`. -/
theorem mem_regBlock {x r : RegIdx} : r ∈ regBlock x ↔ r.toNat ≤ x.toNat := by
  have := x.isLt
  constructor
  · intro h
    obtain ⟨k, hk, rfl⟩ := List.mem_map.1 h
    have := List.mem_range.1 hk
    rw [BitVec.toNat_ofNat]; omega
  · intro h
    exact List.mem_map.2 ⟨r.toNat, List.mem_range.2 (by omega), by simp⟩

/-- The registers Fx55 stores are the same where their readings are. -/
theorem State.block_congr {s t : State} {x : RegIdx} (h : ∀ r ∈ regBlock x, s.reg r = t.reg r) : s.block x = t.block x := by
  refine List.ext_getElem (by simp [State.block_length]) fun k hk hk' => ?_
  have hx := x.isLt
  rw [State.block_length, blockLength] at hk
  have hk16 : (BitVec.ofNat 4 k).toNat = k := by rw [BitVec.toNat_ofNat]; omega
  have reading := h (BitVec.ofNat 4 k) (mem_regBlock.2 (by omega))
  simpa [State.block, State.reg, hk16] using reading

theorem setIfInBounds_eq_set (v : Vector Byte 16) (r : RegIdx) (b : Byte) : v.setIfInBounds r.toNat b = v.set r.toNat b r.isLt :=
  Vector.ext fun k hk => by rw [Vector.getElem_setIfInBounds, Vector.getElem_set]

/-- Fx65's loop forgets what stood in `V0`..`Vx`. -/
theorem loadBlock_set {x r : RegIdx} (hr : r ∈ regBlock x) (v : Vector Byte 16) (b : Byte) (m : Memory) (base : Nat) :
    loadBlock (v.set r.toNat b r.isLt) m base x = loadBlock v m base x := by
  have hx := mem_regBlock.1 hr
  refine Vector.ext fun k hk => ?_
  rw [loadBlock_getElem _ _ _ _ _ hk, loadBlock_getElem _ _ _ _ _ hk]
  split
  · rfl
  · exact Vector.getElem_set_ne _ _ (by omega)

/-! ### Drawing -/

/-- The state with a sprite drawn and `VF` written: what Dxyn does beside the advance and the report (R172). -/
def State.drawn (s : State) (rowAt : Nat → Byte) (xs ys n : Nat) : State :=
  let after := drawSprite rowAt xs ys n (s.fb, s.reg flagReg)
  { s with fb := after.1 }.setReg flagReg after.2

/-- A sprite of no row changes nothing: `VF` is given the value it had (R172, D8). -/
@[simp] theorem State.drawn_zero (s : State) (rowAt : Nat → Byte) (xs ys : Nat) : s.drawn rowAt xs ys 0 = s :=
  State.setReg_reg_self s flagReg

/-- With at least one row, the flag that stood in `VF` before the sprite does not matter. -/
theorem drawSprite_flag_irrelevant (rowAt : Nat → Byte) (xs ys : Nat) {n : Nat} (hn : n ≠ 0) (fb : Framebuffer) (b c : Byte) :
    drawSprite rowAt xs ys n (fb, b) = drawSprite rowAt xs ys n (fb, c) := by
  obtain ⟨n, rfl⟩ := Nat.exists_eq_succ_of_ne_zero hn
  simp only [drawSprite, List.range_succ_eq_map, List.foldl_cons]
  rfl

/-- Drawing a sprite of at least one row forgets what stood in `VF`. -/
theorem State.drawn_setReg_flag (s : State) (b : Byte) (rowAt : Nat → Byte) (xs ys : Nat) {n : Nat} (hn : n ≠ 0) :
    (s.setReg flagReg b).drawn rowAt xs ys n = s.drawn rowAt xs ys n := by
  simp only [State.drawn, State.setReg_fb, drawSprite_flag_irrelevant rowAt xs ys hn s.fb _ (s.reg flagReg)]
  simp [State.setReg, Vector.set_set]

/-- Dxyn, once both of its checks have passed. -/
theorem exec_drw_of_checks {x y : RegIdx} {n : Nibble} (s : State) (hb : firstOutOfRange s.i.toNat n.toNat = none)
    (hrow : firstBadRow (s.reg y).toNat n.toNat = none) :
    exec (.drw x y n) s = .next ((s.advance.drawn (fun k => s.mem.read (s.i.toNat + k)) (s.reg x).toNat (s.reg y).toNat
      n.toNat).reporting { draw := some ⟨s.reg x, s.reg y, n⟩ }) := by
  simp only [exec, execDrw, hb, hrow]
  rfl

/-! ### Key tests -/

/-- A key test fails only on a register's value above 15 (R190). -/
theorem lt_of_badKey_eq_some {b : Byte} {k : Nat} (h : badKey b = some k) : 15 < k := by
  unfold badKey at h
  split at h
  · cases h; assumption
  · cases h

/-! ### Frames -/

/-- The start of an instruction is within any frame, and a frame from there is one from the state before. -/
theorem UnchangedBut.of_advance {rs : List RegIdx} {ps : List Part} {s t : State} (h : UnchangedBut rs ps s.advance t) :
    UnchangedBut rs ps s t :=
  ((unchanged_advance s).mono (by simp) (by simp)).trans h

/-- A write to `I` changes `I` only. -/
theorem unchanged_setIndex (s : State) (a : Word) : UnchangedBut [] [.index] s { s with i := a } := by
  constructor <;> simp [State.reg]

/-- A write to the framebuffer changes the framebuffer only. -/
theorem unchanged_setFrame (s : State) (fb : Framebuffer) : UnchangedBut [] [.frame] s { s with fb := fb } := by
  constructor <;> simp [State.reg]

/-- Fx65's loop changes the registers `V0`..`Vx` only. -/
theorem unchanged_loadBlock (s : State) (base : Nat) (x : RegIdx) :
    UnchangedBut (regBlock x) [] s { s with v := loadBlock s.v s.mem base x } where
  regs r hr := by
    rw [mem_regBlock] at hr
    rw [State.reg, loadBlock_getElem _ _ _ _ _ r.isLt, if_neg hr, State.reg]
  index _ := rfl
  stack _ := rfl
  timer _ := rfl
  keys _ := rfl
  memory _ _ := rfl
  frame _ _ _ _ _ := rfl
  status _ := rfl
  draws _ := rfl

end Sys2Proof.Machine
end

/-! What an instruction can do, said once: it raises a fault R211 lists for it, or completes within its row of the spec's tables. -/
section
namespace Sys2Proof.Machine

/-! ### Raising a fault -/

/-- Instruction `i` raises a fault R211 lists for it, and the record is one R210 and R212 allow. -/
def RaisesListed (i : Instr) (s : State) : Prop :=
  ∃ k a, exec i s = s.raise i k a ∧ k ∈ faultKinds i ∧ (i.wellFormed = true → FaultRecord.Sound ⟨k, s.pc, some (encode i), a⟩)

/-- The record of a failed bounds check holds an address that does not exist. -/
theorem memoryBounds_sound {base len a : Nat} (h : firstOutOfRange base len = some a) (pc : Word) (w : Option Word) :
    FaultRecord.Sound ⟨.memoryBounds, pc, w, some a⟩ := by
  obtain ⟨-, -, rfl⟩ := firstOutOfRange_eq_some.1 h
  exact ⟨_, rfl, Nat.le_max_right _ _⟩

/-- The record of a failed row check holds a row that is not on the screen. -/
theorem drawRowOutOfRange_sound {ys len r : Nat} (h : firstBadRow ys len = some r) (pc : Word) (x y : RegIdx) (n : Nibble) :
    FaultRecord.Sound ⟨.drawRowOutOfRange, pc, some (encode (.drw x y n)), some r⟩ := by
  obtain ⟨-, -, rfl⟩ := firstBadRow_eq_some.1 h
  exact ⟨_, x, y, n, rfl, Nat.le_max_right _ _, rfl⟩

/-! ### Completing -/

/-- Memory from `s` to `t`: untouched, or existing bytes stored from `I` up, at the addresses R56 lists for `i`. -/
def StoresListed (i : Instr) (s t : State) : Prop :=
  t.mem = s.mem ∨ ∃ bytes : List Byte, t.mem = s.mem.writeBytes s.i.toNat bytes ∧ s.i.toNat + bytes.length ≤ memSize ∧
    bytesWritten i s = (List.range bytes.length).map (s.i.toNat + ·)

/-- Instruction `i` completes from `s` to `t`: it writes what the spec's tables list for it and reports its result record. -/
structure CompletesListed (i : Instr) (s t : State) : Prop where
  frame : UnchangedBut (regsWritten i) (partsWritten i) s t
  stores : StoresListed i s t
  stack : s.stack.length ≤ stackDepth → t.stack.length ≤ stackDepth
  report : t.report = some (resultOf i s)

/-- Every byte outside those R56 lists reads as before. -/
theorem StoresListed.read_outside {i : Instr} {s t : State} (h : StoresListed i s t) {a : Nat} (ha : a ∉ bytesWritten i s) :
    t.mem.read a = s.mem.read a := by
  rcases h with hm | ⟨bytes, hm, -, hb⟩
  · rw [hm]
  · have outside : a < s.i.toNat ∨ s.i.toNat + bytes.length ≤ a := by
      by_contra inside
      exact ha (hb ▸ List.mem_map.2 ⟨a - s.i.toNat, List.mem_range.2 (by omega), by omega⟩)
    rw [hm, Memory.read_writeBytes_outside _ outside]

theorem StoresListed.wf {i : Instr} {s t : State} (h : StoresListed i s t) (hs : s.mem.wf = true) : t.mem.wf = true := by
  rcases h with hm | ⟨bytes, hm, -, -⟩
  · rwa [hm]
  · rw [hm]; exact Memory.wf_writeBytes hs _ _

theorem StoresListed.inRange {i : Instr} {s t : State} (h : StoresListed i s t) (hs : s.mem.inRange = true) : t.mem.inRange = true := by
  rcases h with hm | ⟨bytes, hm, hlen, -⟩
  · rwa [hm]
  · rw [hm]; exact Memory.inRange_writeBytes hs hlen

theorem completes_advance {i : Instr} {s : State} (hr : resultOf i s = {}) : CompletesListed i s s.advance where
  frame := .of_advance (.refl _ _ _)
  stores := .inl rfl
  stack := id
  report := by rw [hr]; rfl

theorem completes_setReg {i : Instr} {s : State} {x : RegIdx} {b : Byte} (hw : regsWritten i = [x]) (hr : resultOf i s = {}) :
    CompletesListed i s (s.advance.setReg x b) where
  frame := .of_advance ((unchanged_setReg _ x b).mono (by simp [hw]) (by simp))
  stores := .inl rfl
  stack := id
  report := by rw [hr]; rfl

theorem completes_setRegFlag {i : Instr} {s : State} {x : RegIdx} {b c : Byte} (hw : regsWritten i = [x, 0xF#4])
    (hr : resultOf i s = {}) : CompletesListed i s (s.advance.setRegFlag x b c) where
  frame := .of_advance ((unchanged_setRegFlag _ x b c).mono (by simp [hw, flagReg]) (by simp))
  stores := .inl rfl
  stack := id
  report := by rw [hr]; rfl

theorem completes_skipIf {i : Instr} {s : State} {c : Bool} (hr : resultOf i s = {}) : CompletesListed i s (s.advance.skipIf c) where
  frame := .of_advance ((unchanged_skipIf _ c).mono (by simp) (by simp))
  stores := .inl (State.skipIf_mem ..)
  stack h := by rwa [State.skipIf_stack]
  report := by rw [State.skipIf_report, hr]; rfl

theorem completes_jump {i : Instr} {s : State} {target : Word} (hr : resultOf i s = {}) :
    CompletesListed i s { s.advance with pc := target } where
  frame := by constructor <;> intros <;> rfl
  stores := .inl rfl
  stack := id
  report := by rw [hr]; rfl

theorem completes_setIndex {i : Instr} {s : State} {a : Word} (hp : partsWritten i = [.index]) (hr : resultOf i s = {}) :
    CompletesListed i s { s.advance with i := a } where
  frame := .of_advance ((unchanged_setIndex _ a).mono (by simp) (by simp [hp]))
  stores := .inl rfl
  stack := id
  report := by rw [hr]; rfl

/-! ### The instructions that can fault -/

/-- Instruction `i` at `s` raises a fault listed for it, or completes and writes what is listed for it. -/
def KeepsToTables (i : Instr) (s : State) : Prop := RaisesListed i s ∨ ∃ t, exec i s = .next t ∧ CompletesListed i s t

/-- A failed bounds check is a listed fault of the instructions that access memory. -/
theorem raisesListed_memoryBounds {i : Instr} {s : State} {base len a : Nat} (hk : .memoryBounds ∈ faultKinds i)
    (hb : firstOutOfRange base len = some a) (he : exec i s = s.raise i .memoryBounds (some a)) : RaisesListed i s :=
  ⟨_, _, he, hk, fun _ => memoryBounds_sound hb _ _⟩

theorem ret_keepsToTables (s : State) : KeepsToTables .ret s := by
  cases hs : s.stack with
  | nil => exact .inl ⟨.stackUnderflow, none, by simp [exec, execRet, hs], by simp [faultKinds], fun _ => ⟨rfl, rfl⟩⟩
  | cons top rest =>
    refine .inr ?_
    simp only [exec, execRet, hs]
    refine ⟨_, rfl, by constructor <;> simp [partsWritten, State.reg], .inl rfl, fun h => ?_, rfl⟩
    rw [hs, List.length_cons] at h
    exact Nat.le_of_succ_le h

theorem call_keepsToTables (nnn : Addr12) (s : State) : KeepsToTables (.call nnn) s := by
  by_cases full : stackDepth ≤ s.stack.length
  · exact .inl ⟨_, _, if_pos full, by simp [faultKinds], fun _ => ⟨rfl, nnn, rfl⟩⟩
  · exact .inr ⟨_, if_neg full, by constructor <;> simp [partsWritten, State.reg], .inl rfl, fun _ => Nat.lt_of_not_le full, rfl⟩

/-- A key test's failure is a listed fault; where it passes, it is a skip. -/
theorem skp_keepsToTables (x : RegIdx) (s : State) : KeepsToTables (.skp x) s := by
  cases hk : badKey (s.reg x) with
  | some k =>
    exact .inl ⟨.keyIndexOutOfRange, some k, by simp [exec, execSkp, hk], by simp [faultKinds],
      fun _ => ⟨k, x, rfl, lt_of_badKey_eq_some hk, .inl rfl⟩⟩
  | none =>
    refine .inr ?_
    simp only [exec, execSkp, hk]
    exact ⟨_, rfl, completes_skipIf rfl⟩

theorem sknp_keepsToTables (x : RegIdx) (s : State) : KeepsToTables (.sknp x) s := by
  cases hk : badKey (s.reg x) with
  | some k =>
    exact .inl ⟨.keyIndexOutOfRange, some k, by simp [exec, execSknp, hk], by simp [faultKinds],
      fun _ => ⟨k, x, rfl, lt_of_badKey_eq_some hk, .inr rfl⟩⟩
  | none =>
    refine .inr ?_
    simp only [exec, execSknp, hk]
    exact ⟨_, rfl, completes_skipIf rfl⟩

/-- Drawing a sprite is within the frame of Dxyn: of Dxy0 too, which does not list `VF`. -/
theorem unchanged_drawn (x y : RegIdx) (n : Nibble) (s : State) (rowAt : Nat → Byte) (xs ys : Nat) :
    UnchangedBut (regsWritten (.drw x y n)) [.frame] s (s.drawn rowAt xs ys n.toNat) := by
  by_cases hn : n = 0#4
  · subst hn
    rw [BitVec.toNat_zero, State.drawn_zero]
    exact .refl _ _ _
  · exact ((unchanged_setFrame s _).mono (by simp) (List.Subset.refl _)).trans
      ((unchanged_setReg _ flagReg _).mono (by simp [regsWritten, hn, flagReg]) (by simp))

theorem drw_keepsToTables (x y : RegIdx) (n : Nibble) (s : State) : KeepsToTables (.drw x y n) s := by
  cases hb : firstOutOfRange s.i.toNat n.toNat with
  | some a => exact .inl (raisesListed_memoryBounds (by simp [faultKinds]) hb (by simp [exec, execDrw, hb]))
  | none =>
    cases hrow : firstBadRow (s.reg y).toNat n.toNat with
    | some r =>
      exact .inl ⟨.drawRowOutOfRange, some r, by simp [exec, execDrw, hb, hrow], by simp [faultKinds],
        fun _ => drawRowOutOfRange_sound hrow ..⟩
    | none =>
      exact .inr ⟨_, exec_drw_of_checks s hb hrow,
        .of_advance ((unchanged_drawn ..).trans ((unchanged_reporting ..).mono (by simp) (by simp))), .inl rfl, id, rfl⟩

theorem ldB_keepsToTables (x : RegIdx) (s : State) : KeepsToTables (.ldB x) s := by
  cases hb : firstOutOfRange s.i.toNat 3 with
  | some a => exact .inl (raisesListed_memoryBounds (by simp [faultKinds]) hb (by simp [exec, execLdB, hb]))
  | none =>
    refine .inr ?_
    simp only [exec, execLdB, hb]
    refine ⟨_, rfl, by constructor <;> simp [partsWritten, State.reg], .inr ⟨bcdDigits (s.reg x), rfl, ?_, rfl⟩, id, rfl⟩
    exact (firstOutOfRange_eq_none.1 hb).resolve_left (by decide)

theorem ldMemVx_keepsToTables (x : RegIdx) (s : State) : KeepsToTables (.ldMemVx x) s := by
  cases hb : firstOutOfRange s.i.toNat (blockLength x) with
  | some a => exact .inl (raisesListed_memoryBounds (by simp [faultKinds]) hb (by simp [exec, execLdMemVx, hb]))
  | none =>
    refine .inr ?_
    simp only [exec, execLdMemVx, hb]
    refine ⟨_, rfl, by constructor <;> simp [partsWritten, State.reg], .inr ⟨s.block x, rfl, ?_, ?_⟩, id, rfl⟩
    · rw [State.block_length]
      exact (firstOutOfRange_eq_none.1 hb).resolve_left (Nat.succ_ne_zero _)
    · rw [State.block_length]; rfl

theorem ldVxMem_keepsToTables (x : RegIdx) (s : State) : KeepsToTables (.ldVxMem x) s := by
  cases hb : firstOutOfRange s.i.toNat (blockLength x) with
  | some a => exact .inl (raisesListed_memoryBounds (by simp [faultKinds]) hb (by simp [exec, execLdVxMem, hb]))
  | none =>
    refine .inr ?_
    simp only [exec, execLdVxMem, hb]
    have loaded := (unchanged_loadBlock s.advance s.i.toNat x).mono (List.Subset.refl _) (List.nil_subset [.index])
    exact ⟨_, rfl, .of_advance (loaded.trans ((unchanged_setIndex ..).mono (by simp) (by simp))), .inl rfl, id, rfl⟩

/-! ### The cases of an instruction -/

/-- Every instruction raises a fault listed for it, or completes and writes what is listed for it. -/
theorem exec_keepsToTables (i : Instr) (s : State) : KeepsToTables i s := by
  cases i with
  | ldImm | addImm | ldReg | orReg | andReg | xorReg | ldVxDT => exact .inr ⟨_, rfl, completes_setReg rfl rfl⟩
  | addReg | subReg | shr | subnReg | shl => exact .inr ⟨_, rfl, completes_setRegFlag rfl rfl⟩
  | seImm | sneImm | seReg | sneReg => exact .inr ⟨_, rfl, completes_skipIf rfl⟩
  | jp | jpV0 => exact .inr ⟨_, rfl, completes_jump rfl⟩
  | ldI | addI | ldF => exact .inr ⟨_, rfl, completes_setIndex rfl rfl⟩
  | ldST => exact .inr ⟨_, rfl, completes_advance rfl⟩
  | ldVxK => exact .inr ⟨_, rfl, .of_advance ((unchanged_reporting ..).mono (by simp) (by simp)), .inl rfl, id, rfl⟩
  | ldDTVx => exact .inr ⟨_, rfl, by constructor <;> simp [partsWritten, State.reg], .inl rfl, id, rfl⟩
  | cls =>
    have blank := unchanged_setFrame s.advance Framebuffer.blank
    exact .inr ⟨_, rfl, .of_advance (blank.trans ((unchanged_reporting ..).mono (by simp) (by simp))), .inl rfl, id, rfl⟩
  | rnd x kk =>
    have draws : UnchangedBut [x] [.draws] s.advance s.advance.drawByte.2 := (unchanged_drawByte _).mono (by simp) (by simp)
    exact .inr ⟨_, rfl, .of_advance (draws.trans ((unchanged_setReg ..).mono (by simp) (by simp))), .inl rfl, id, rfl⟩
  | sys nnn => exact .inl ⟨_, _, rfl, by simp [faultKinds], fun wf => ⟨rfl, nnn, wf, rfl⟩⟩
  | ret => exact ret_keepsToTables s
  | call nnn => exact call_keepsToTables nnn s
  | skp x => exact skp_keepsToTables x s
  | sknp x => exact sknp_keepsToTables x s
  | drw x y n => exact drw_keepsToTables x y n s
  | ldB x => exact ldB_keepsToTables x s
  | ldMemVx x => exact ldMemVx_keepsToTables x s
  | ldVxMem x => exact ldVxMem_keepsToTables x s

end Sys2Proof.Machine
end

/-! The invariant and the frame of every instruction (10_state.md R23 to R31, 20_memory.md R56). -/
section
namespace Sys2Proof.Machine

/-! ### The decoder and SYS -/

theorem decodeFamily8_ne_sys (w : Word) (nnn : Addr12) : decodeFamily8 w ≠ .ok (.sys nnn) := by
  unfold decodeFamily8
  split <;> nofun

theorem decodeFamilyF_ne_sys (w : Word) (nnn : Addr12) : decodeFamilyF w ≠ .ok (.sys nnn) := by
  unfold decodeFamilyF
  split <;> nofun

/-- What decodes to SYS is a word of family 0 that is neither 00E0 nor 00EE (R80). -/
theorem decodeWord_eq_sys {w : Word} {nnn : Addr12} (h : decodeWord w = .ok (.sys nnn)) :
    family w = 0x0#4 ∧ w ≠ 0x00E0#16 ∧ w ≠ 0x00EE#16 ∧ nnn = fieldNNN w := by
  by_cases hf : family w = 0x0#4
  · simp only [decodeWord, hf] at h
    by_cases hcls : w = 0x00E0#16
    · simp [hcls] at h
    · by_cases hret : w = 0x00EE#16
      · simp [hret] at h
      · rw [if_neg hcls, if_neg hret] at h
        cases h
        exact ⟨hf, hcls, hret, rfl⟩
  · unfold decodeWord at h
    split at h <;> simp_all [decodeFamily8_ne_sys, decodeFamilyF_ne_sys, ite_eq_iff]

/-- What a word decodes to is well-formed: SYS takes no word of CLS or RET (R80). -/
theorem decodeWord_wellFormed {w : Word} {i : Instr} (h : decodeWord w = .ok i) : i.wellFormed = true := by
  cases i with
  | sys nnn =>
    obtain ⟨hf, hcls, hret, rfl⟩ := decodeWord_eq_sys h
    have h1 : fieldNNN w ≠ 0x0E0#12 := fun e => hcls (word_ext_nnn hf e)
    have h2 : fieldNNN w ≠ 0x0EE#12 := fun e => hret (word_ext_nnn hf e)
    simp [Instr.wellFormed, h1, h2]
  | _ => rfl

/-! ### The invariant -/

theorem resultOf_exclusive (i : Instr) (s : State) : (resultOf i s).exclusive = true := by
  cases i <;> rfl

/-- Taking a fault whose record R210 allows keeps the invariant. -/
theorem State.Inv.takeFault {s : State} (hs : s.Inv) {k : FaultKind} {w : Option Word} {a : Option Nat}
    (h : FaultRecord.Sound ⟨k, s.pc, w, a⟩) : (s.takeFault k w a).Inv where
  memCanonical := hs.memCanonical
  memInRange := hs.memInRange
  stackBounded := hs.stackBounded
  reportExclusive _ hr := nomatch hr
  faultPrecise _ hr := by cases hr; exact ⟨rfl, rfl, h⟩

/-- No instruction that completes writes `STATUS`. -/
theorem CompletesListed.status {i : Instr} {s t : State} (h : CompletesListed i s t) : t.status = s.status :=
  h.frame.status (by cases i <;> simp [partsWritten])

/-- Completing an instruction from a Running state keeps the invariant. -/
theorem CompletesListed.inv {i : Instr} {s t : State} (h : CompletesListed i s t) (hs : s.Inv) (running : s.Running) : t.Inv where
  memCanonical := h.stores.wf hs.memCanonical
  memInRange := h.stores.inRange hs.memInRange
  stackBounded := h.stack hs.stackBounded
  reportExclusive r hr := by
    cases h.report.symm.trans hr
    exact resultOf_exclusive i s
  faultPrecise r hr := nomatch running.symm.trans (h.status.symm.trans hr)

/-- A well-formed instruction keeps the invariant from a Running state. -/
theorem exec_inv {i : Instr} {s t : State} (wf : i.wellFormed = true) (hs : s.Inv) (running : s.Running) (h : exec i s = .next t) :
    t.Inv := by
  rcases exec_keepsToTables i s with ⟨k, a, he, -, sound⟩ | ⟨u, he, completes⟩
  · cases he.symm.trans h
    exact hs.takeFault (sound wf)
  · cases he.symm.trans h
    exact completes.inv hs running

/-- Settles O18: a step leaves a Faulted state alone, takes a sound fault at the fetch or at decode, or runs a well-formed instruction. -/
theorem stepKeepsInvariant : Obligations.StepKeepsInvariant := by
  intro s t hs h
  rcases step_cases s with ⟨_, -, hstep⟩ | ⟨running, ⟨a, hf, hstep⟩ | ⟨w, e, -, hd, hstep⟩ | ⟨w, i, -, hd, hstep⟩⟩
  · cases hstep.symm.trans h
    exact hs
  · cases hstep.symm.trans h
    refine hs.takeFault ⟨a, rfl, ?_⟩
    rcases fetch_cases s with ⟨-, ok⟩ | ⟨-, error⟩
    · cases ok.symm.trans hf
    · cases error.symm.trans hf
      exact Nat.le_max_right _ _
  · cases hstep.symm.trans h
    exact hs.takeFault ⟨rfl, w, e, rfl, hd⟩
  · exact exec_inv (decodeWord_wellFormed hd) hs running (hstep.symm.trans h)

/-- Settles O17: reset lists no memory, has an empty stack, no result record and is Running. -/
theorem resetMeetsInvariant : Obligations.ResetMeetsInvariant where
  memCanonical := rfl
  memInRange := rfl
  stackBounded := Nat.zero_le _
  reportExclusive _ hr := nomatch hr
  faultPrecise _ hr := nomatch hr

/-! ### What an instruction writes -/

/-- An instruction that ends Running has completed. -/
theorem completesListed_of_running {i : Instr} {s t : State} (h : exec i s = .next t) (running : t.Running) :
    CompletesListed i s t := by
  rcases exec_keepsToTables i s with ⟨k, a, he, -, -⟩ | ⟨u, he, completes⟩
  · cases he.symm.trans h
    cases running
  · cases he.symm.trans h
    exact completes

/-- Settles O20: an instruction that ends Running has completed within its row of the tables. -/
theorem instructionsWriteOnlyTheirState : Obligations.InstructionsWriteOnlyTheirState := by
  intro i s t _ h running
  have completes := completesListed_of_running h running
  exact ⟨completes.frame, fun _ ha => completes.stores.read_outside ha⟩

end Sys2Proof.Machine
end

/-! What an instruction reads (10_state.md R23, R27, R28, 30_encoding.md R82): a change of registers, keys, timer or draw counter that
spares what an instruction reads and writes passes through it. -/
section
namespace Sys2Proof.Machine

/-- A change of the registers, the keys, the timer and the model's draw counter, each by itself. -/
structure Perturbation where
  regs  : Vector Byte 16 → Vector Byte 16 := id
  keys  : Word → Word := id
  timer : Byte → Byte := id
  draws : Nat → Nat := id

/-- The state with the change made to it. -/
def Perturbation.apply (p : Perturbation) (s : State) : State :=
  { s with v := p.regs s.v, keys := p.keys s.keys, dt := p.timer s.dt, draws := p.draws s.draws }

/-- The outcome of a step with the change made to its next state. -/
def Perturbation.applyOutcome (p : Perturbation) : StepOutcome → StepOutcome
  | .next s => .next (p.apply s)
  | .fault r => .fault r
  | .refused r => .refused r

/-- `p` changes no reading instruction `i` makes, and it does not matter whether it comes before or after what `i` writes. -/
structure Perturbation.Spares (p : Perturbation) (i : Instr) : Prop where
  reads : ∀ r ∈ regsRead i, ∀ v, (p.regs v)[r.toNat]'r.isLt = v[r.toNat]'r.isLt
  writes : ∀ r ∈ regsWritten i, ∀ v b, (p.regs v).set r.toNat b r.isLt = p.regs (v.set r.toNat b r.isLt)
  keys : ∀ x, i = .skp x ∨ i = .sknp x → p.keys = id
  timer : ∀ x, i = .ldVxDT x ∨ i = .ldDTVx x → p.timer = id
  draws : ∀ x kk, i = .rnd x kk → p.draws = id

section
variable {p : Perturbation} {i : Instr}

@[simp] theorem Perturbation.applyOutcome_next (s : State) : p.applyOutcome (.next s) = .next (p.apply s) := rfl
@[simp] theorem Perturbation.apply_advance (s : State) : (p.apply s).advance = p.apply s.advance := rfl
@[simp] theorem Perturbation.apply_raise (s : State) (j : Instr) (k : FaultKind) (a : Option Nat) :
    (p.apply s).raise j k a = p.applyOutcome (s.raise j k a) := rfl
@[simp] theorem Perturbation.apply_i (s : State) : (p.apply s).i = s.i := rfl
@[simp] theorem Perturbation.apply_stack (s : State) : (p.apply s).stack = s.stack := rfl
@[simp] theorem Perturbation.apply_mem (s : State) : (p.apply s).mem = s.mem := rfl
@[simp] theorem Perturbation.apply_skipIf (s : State) (c : Bool) : (p.apply s).skipIf c = p.apply (s.skipIf c) := by
  cases c <;> rfl

theorem Perturbation.Spares.reg_apply (h : p.Spares i) (s : State) : ∀ r ∈ regsRead i, (p.apply s).reg r = s.reg r :=
  fun r hr => h.reads r hr s.v

theorem Perturbation.Spares.apply_setReg (h : p.Spares i) :
    ∀ r ∈ regsWritten i, ∀ s b, (p.apply s).setReg r b = p.apply (s.setReg r b) := by
  intro r hr s b
  simp only [Perturbation.apply, State.setReg, h.writes r hr]

/-- A map that commutes with every pass of a loop commutes with the loop. -/
theorem foldl_apply_comm {α β : Type} {f : α → α} {pass : α → β → α} {ks : List β}
    (h : ∀ k ∈ ks, ∀ a, pass (f a) k = f (pass a k)) (a : α) : ks.foldl pass (f a) = f (ks.foldl pass a) := by
  induction ks generalizing a with
  | nil => rfl
  | cons k ks ih =>
    rw [List.foldl_cons, List.foldl_cons, h k (by simp), ih fun j hj => h j (by simp [hj])]

/-- Fx65's loop may come before or after a change that may come before or after each of its register writes. -/
theorem Perturbation.Spares.loadBlock_regs {x : RegIdx} (h : p.Spares (.ldVxMem x)) (v : Vector Byte 16) (m : Memory) (base : Nat) :
    loadBlock (p.regs v) m base x = p.regs (loadBlock v m base x) := by
  refine foldl_apply_comm (fun k hk v => ?_) v
  have hk16 : k < 16 := by
    have := List.mem_range.1 hk
    have := x.isLt
    rw [blockLength] at *; omega
  obtain ⟨r, rfl⟩ : ∃ r : RegIdx, r.toNat = k := ⟨⟨k, hk16⟩, rfl⟩
  rw [setIfInBounds_eq_set, setIfInBounds_eq_set]
  exact h.writes r (mem_regBlock.2 (Nat.lt_succ_iff.1 (List.mem_range.1 hk))) _ _

/-- A sprite may be drawn before or after a change that spares Dxyn. -/
theorem Perturbation.Spares.apply_drawn {x y : RegIdx} {n : Nibble} (h : p.Spares (.drw x y n)) (s : State) (rowAt : Nat → Byte)
    (xs ys : Nat) : (p.apply s).drawn rowAt xs ys n.toNat = p.apply (s.drawn rowAt xs ys n.toNat) := by
  by_cases hn : n = 0#4
  · subst hn
    exact (State.drawn_zero ..).trans (congrArg p.apply (State.drawn_zero ..).symm)
  · have hn' : n.toNat ≠ 0 := fun e => hn (BitVec.eq_of_toNat_eq e)
    simp only [State.drawn, drawSprite_flag_irrelevant rowAt xs ys hn' _ _ (s.reg flagReg)]
    exact h.apply_setReg flagReg (by simp [regsWritten, hn, flagReg])
      { s with fb := (drawSprite rowAt xs ys n.toNat (s.fb, s.reg flagReg)).1 } _

/-- A change that spares an instruction may be made before the instruction or to its outcome. -/
theorem exec_apply (h : p.Spares i) (s : State) : exec i (p.apply s) = p.applyOutcome (exec i s) := by
  have hr := h.reg_apply s
  have hw := h.apply_setReg
  cases i with
  | cls | sys | jp | ldST | ldVxK | ldI => rfl
  | ldImm | addImm | ldReg | orReg | andReg | xorReg =>
    simp_all [exec, execLdImm, execAddImm, execLdReg, execOrReg, execAndReg, execXorReg, regsRead, regsWritten]
  | addReg | subReg | shr | subnReg | shl =>
    simp_all [exec, execAddReg, execSubReg, execShr, execSubnReg, execShl, State.setRegFlag, flagReg, regsRead, regsWritten]
  | seImm | sneImm | seReg | sneReg => simp_all [exec, execSeImm, execSneImm, execSeReg, execSneReg, regsRead]
  | jpV0 => simp only [exec, execJpV0, hr 0#4 (by simp [regsRead])]; rfl
  | addI x => simp only [exec, execAddI, hr x (by simp [regsRead])]; rfl
  | ldF x => simp only [exec, execLdF, hr x (by simp [regsRead])]; rfl
  | ldVxDT x =>
    have timer : (p.apply s).dt = s.dt := congrFun (h.timer x (.inl rfl)) s.dt
    simp [exec, execLdVxDT, timer, hw x (by simp [regsWritten])]
  | ldDTVx x =>
    simp only [exec, execLdDTVx, hr x (by simp [regsRead]), Perturbation.applyOutcome_next]
    simp [Perturbation.apply, State.advance, h.timer x (.inr rfl)]
  | rnd x kk =>
    have draws : (p.apply s.advance).drawByte.2 = p.apply s.advance.drawByte.2 := by
      simp [Perturbation.apply, State.drawByte, h.draws x kk rfl]
    have byte : (p.apply s.advance).drawByte.1 = s.advance.drawByte.1 := by
      simp [Perturbation.apply, h.draws x kk rfl]
    simp only [exec, execRnd, Perturbation.apply_advance, draws, byte, hw x (by simp [regsWritten]), Perturbation.applyOutcome_next]
  | ret => cases hs : s.stack <;> simp only [exec, execRet, Perturbation.apply_stack, hs] <;> rfl
  | call =>
    by_cases full : stackDepth ≤ s.stack.length <;> simp only [exec, execCall, Perturbation.apply_stack, full] <;> rfl
  | skp x =>
    have keys : (p.apply s).keys = s.keys := congrFun (h.keys x (.inl rfl)) s.keys
    cases hk : badKey (s.reg x) <;> simp [exec, execSkp, State.keyHeld, hk, keys, hr x (by simp [regsRead])]
  | sknp x =>
    have keys : (p.apply s).keys = s.keys := congrFun (h.keys x (.inr rfl)) s.keys
    cases hk : badKey (s.reg x) <;> simp [exec, execSknp, State.keyHeld, hk, keys, hr x (by simp [regsRead])]
  | ldB x =>
    cases hb : firstOutOfRange s.i.toNat 3 <;>
      simp only [exec, execLdB, Perturbation.apply_i, Perturbation.apply_mem, hb, hr x (by simp [regsRead])] <;> rfl
  | ldMemVx x =>
    have block := State.block_congr hr
    cases hb : firstOutOfRange s.i.toNat (blockLength x) <;>
      simp only [exec, execLdMemVx, Perturbation.apply_i, Perturbation.apply_mem, hb, block] <;> rfl
  | ldVxMem x =>
    have load := h.loadBlock_regs s.v s.mem s.i.toNat
    cases hb : firstOutOfRange s.i.toNat (blockLength x) with
    | some a => simp [exec, execLdVxMem, hb]
    | none => simp [exec, execLdVxMem, hb, State.advance, Perturbation.apply, load]
  | drw x y n =>
    obtain ⟨hx, hy⟩ : (p.apply s).reg x = s.reg x ∧ (p.apply s).reg y = s.reg y := by simpa [regsRead] using hr
    cases hb : firstOutOfRange s.i.toNat n.toNat with
    | some a => simp [exec, execDrw, hb]
    | none =>
      cases hrow : firstBadRow (s.reg y).toNat n.toNat with
      | some r => simp [exec, execDrw, hb, hrow, hy]
      | none =>
        rw [exec_drw_of_checks s hb hrow, exec_drw_of_checks (p.apply s) hb (by rwa [hy]), hx, hy]
        exact congrArg (fun u => Host.Outcome.next (State.reporting u _)) (h.apply_drawn s.advance ..)

/-- What an instruction makes of a state, it makes of the state with a change that spares it. -/
theorem exec_apply_next (h : p.Spares i) {s t : State} (he : exec i s = .next t) : exec i (p.apply s) = .next (p.apply t) := by
  rw [exec_apply h, he, Perturbation.applyOutcome_next]

end

/-! ### Keys, timer and draw counter -/

theorem spares_keys {i : Instr} (m : Word) (hi : ∀ x, i ≠ .skp x ∧ i ≠ .sknp x) :
    Perturbation.Spares { keys := fun _ => m } i where
  reads _ _ _ := rfl
  writes _ _ _ _ := rfl
  keys x h := (h.elim (hi x).1 (hi x).2).elim
  timer _ _ := rfl
  draws _ _ _ := rfl

theorem spares_timer {i : Instr} (d : Byte) (hi : ∀ x, i ≠ .ldVxDT x) (hw : ∀ x, i ≠ .ldDTVx x) :
    Perturbation.Spares { timer := fun _ => d } i where
  reads _ _ _ := rfl
  writes _ _ _ _ := rfl
  keys _ _ := rfl
  timer x h := (h.elim (hi x) (hw x)).elim
  draws _ _ _ := rfl

theorem spares_draws {i : Instr} (k : Nat) (hi : ∀ x kk, i ≠ .rnd x kk) : Perturbation.Spares { draws := fun _ => k } i where
  reads _ _ _ := rfl
  writes _ _ _ _ := rfl
  keys _ _ := rfl
  timer _ _ := rfl
  draws x kk h := (hi x kk h).elim

/-- Settles O22: a change of keys, timer or draw counter spares every instruction not named; Fx15 overwrites the timer unread. -/
theorem inputsReadOnlyByTheirInstructions : Obligations.InputsReadOnlyByTheirInstructions := by
  intro i s t _ h
  refine ⟨fun m hi => exec_apply_next (spares_keys m hi) h, fun d hi => ?_, fun k hi => exec_apply_next (spares_draws k hi) h⟩
  by_cases hw : ∃ x, i = .ldDTVx x
  · obtain ⟨x, rfl⟩ := hw
    exact ⟨t, h, rfl, fun _ notWriter => (notWriter x rfl).elim⟩
  · exact ⟨{ t with dt := d }, exec_apply_next (spares_timer d hi fun x e => hw ⟨x, e⟩) h, rfl, fun _ _ => rfl⟩

/-! ### Registers -/

theorem spares_setReg {i : Instr} {r : RegIdx} (b : Byte) (hr : r ∉ regsRead i) (hw : r ∉ regsWritten i) :
    Perturbation.Spares { regs := fun v => v.set r.toNat b r.isLt } i where
  reads q hq v := by
    have hne : r ≠ q := fun e => hr (e ▸ hq)
    exact Vector.getElem_set_ne r.isLt q.isLt (regIdx_toNat_ne hne)
  writes q hq v c := by
    have hne : r ≠ q := fun e => hw (e ▸ hq)
    show (v.set r.toNat b r.isLt).set q.toNat c q.isLt = (v.set q.toNat c q.isLt).set r.toNat b r.isLt
    exact Vector.set_comm b c (regIdx_toNat_ne hne)
  keys _ _ := rfl
  timer _ _ := rfl
  draws _ _ _ := rfl

/-- A register an instruction writes without reading it does not matter to the instruction, unless the instruction faults; then it
keeps the value it had. -/
theorem exec_setReg_overwritten {i : Instr} {r : RegIdx} (hr : r ∉ regsRead i) (hw : r ∈ regsWritten i) (b : Byte) (s : State) :
    exec i (s.setReg r b) = exec i s ∨
      ∃ k a, exec i s = s.raise i k a ∧ exec i (s.setReg r b) = (s.setReg r b).raise i k a := by
  have hreg : ∀ q ∈ regsRead i, (s.setReg r b).reg q = s.reg q := fun q hq => s.reg_setReg_ne b fun e => hr (e ▸ hq)
  cases i with
  | ldImm x | rnd x | ldVxDT x =>
    obtain rfl : r = x := List.mem_singleton.1 hw
    exact .inl (by simp [exec, execLdImm, execRnd, execLdVxDT])
  | ldReg x y =>
    obtain rfl : r = x := List.mem_singleton.1 hw
    exact .inl (by simp [exec, execLdReg, hreg y (by simp [regsRead])])
  | addImm | orReg | andReg | xorReg => simp_all [regsRead, regsWritten]
  | addReg x y | subReg x y | subnReg x y =>
    obtain rfl : r = flagReg := by simp_all [regsRead, regsWritten, flagReg]
    exact .inl (by simp [exec, execAddReg, execSubReg, execSubnReg, hreg x (by simp [regsRead]), hreg y (by simp [regsRead])])
  | shr x | shl x =>
    obtain rfl : r = flagReg := by simp_all [regsRead, regsWritten, flagReg]
    exact .inl (by simp [exec, execShr, execShl, hreg x (by simp [regsRead])])
  | drw x y n =>
    have hx := hreg x (by simp [regsRead])
    have hy := hreg y (by simp [regsRead])
    obtain ⟨hn, rfl⟩ : n ≠ 0#4 ∧ r = flagReg := by
      by_cases hn : n = 0#4 <;> simp_all [regsWritten, flagReg]
    have hn' : n.toNat ≠ 0 := fun e => hn (BitVec.eq_of_toNat_eq e)
    cases hb : firstOutOfRange s.i.toNat n.toNat with
    | some a => exact .inr ⟨.memoryBounds, some a, by simp [exec, execDrw, hb], by simp [exec, execDrw, hb]⟩
    | none =>
      cases hrow : firstBadRow (s.reg y).toNat n.toNat with
      | some r => exact .inr ⟨.drawRowOutOfRange, some r, by simp [exec, execDrw, hb, hrow], by simp [exec, execDrw, hb, hrow, hy]⟩
      | none =>
        left
        rw [exec_drw_of_checks s hb hrow, exec_drw_of_checks (s.setReg flagReg b) hb (by rwa [hy]), hx, hy, State.advance_setReg,
          State.drawn_setReg_flag _ _ _ _ _ hn']
        rfl
  | ldVxMem x =>
    cases hb : firstOutOfRange s.i.toNat (blockLength x) with
    | some a => exact .inr ⟨.memoryBounds, some a, by simp [exec, execLdVxMem, hb], by simp [exec, execLdVxMem, hb]⟩
    | none =>
      have load := loadBlock_set hw s.v b s.mem s.i.toNat
      exact .inl (by simp [exec, execLdVxMem, hb, State.setReg, State.advance, load])
  | _ => exact (List.not_mem_nil hw).elim

/-- Settles O21: a register outside both lists keeps its change through the instruction, and one that is only written loses it. -/
theorem instructionsReadOnlyListedRegisters : Obligations.InstructionsReadOnlyListedRegisters := by
  intro i s t r b hr _ h
  by_cases hw : r ∈ regsWritten i
  · rcases exec_setReg_overwritten hr hw b s with same | ⟨k, a, he, hu⟩
    · exact ⟨t, same.trans h, rfl, fun _ _ => rfl⟩
    · cases he.symm.trans h
      exact ⟨_, hu, State.setReg_setReg (s.takeFault ..) r b 0#8, fun running => nomatch running⟩
  · exact ⟨t.setReg r b, exec_apply_next (spares_setReg b hr hw) h, State.setReg_setReg t r b 0#8, fun _ h => (hw h).elim⟩

end Sys2Proof.Machine
end

/-! Stores and the next fetch (20_memory.md R57, R61): what Fx33, Fx55 and `load_program` leave in memory, and the word a fetch reads
from it. -/
section
namespace Sys2Proof.Machine

/-! ### The stored bytes -/

/-- The bytes Fx55 stores, register by register. -/
theorem State.block_eq_map_reg (s : State) (x : RegIdx) : s.block x = (regBlock x).map s.reg := by
  have hx := x.isLt
  refine List.ext_getElem (by simp [State.block_length, regBlock, blockLength]) fun k hk _ => ?_
  rw [State.block_length, blockLength] at hk
  have hk16 : k % 16 = k := by omega
  simp [State.block, regBlock, State.reg, hk16]

/-- Fx33, once its check has passed. -/
theorem exec_ldB_of_check {x : RegIdx} (s : State) (hb : firstOutOfRange s.i.toNat 3 = none) :
    exec (.ldB x) s = .next { s.advance with mem := s.mem.writeBytes s.i.toNat (bcdDigits (s.reg x)) } := by
  simp only [exec, execLdB, hb]

/-- Fx55, once its check has passed. -/
theorem exec_ldMemVx_of_check {x : RegIdx} (s : State) (hb : firstOutOfRange s.i.toNat (blockLength x) = none) :
    exec (.ldMemVx x) s =
      .next { s.advance with mem := s.mem.writeBytes s.i.toNat (s.block x), i := indexAfterBlock s.i x } := by
  simp only [exec, execLdMemVx, hb]

/-- `load_program` answers done only where it has loaded the image (R253, R254). -/
theorem eq_loadImage_of_perform_done {image : List Byte} {s t : State} (h : perform (.loadProgram image) s = .next (t, .done)) :
    t = s.loadImage image := by
  simp only [perform] at h
  split at h
  · cases h
  · cases h; rfl

/-! ### The fetch -/

/-- A fetch within memory reads the word at `PC`. -/
theorem fetch_of_inRange {s : State} (hpc : s.pc.toNat + 1 < memSize) :
    s.fetch = .ok (wordOfBytes (s.mem.read s.pc.toNat) (s.mem.read (s.pc.toNat + 1))) := by
  rcases fetch_cases s with ⟨-, ok⟩ | ⟨outside, -⟩
  · exact ok
  · omega

/-- A fetch over memory with bytes stored in it reads the word after the store, however the two overlap (R61). -/
theorem fetch_of_mem_eq_writeBytes {s t : State} {base : Nat} {bytes : List Byte} (pc : Word) (hpc : pc.toNat + 1 < memSize)
    (hm : t.mem = s.mem.writeBytes base bytes) :
    State.fetch { t with pc := pc } = .ok (s.wordAfterStore base bytes pc.toNat) := by
  rw [fetch_of_inRange hpc, hm, read_writeBytes_eq, read_writeBytes_eq]
  rfl

/-- Settles O46: each of the three stores is a `writeBytes`, and the next fetch reads the word after it. -/
theorem fetchSeesStoredBytes : Obligations.FetchSeesStoredBytes := by
  intro x s t pc hpc
  refine ⟨fun hi h => ?_, fun hi h => ?_, fun image h => ?_⟩
  · cases (exec_ldB_of_check s (firstOutOfRange_eq_none.2 (.inr hi))).symm.trans h
    exact fetch_of_mem_eq_writeBytes pc hpc rfl
  · cases (exec_ldMemVx_of_check s (firstOutOfRange_eq_none.2 (.inr hi))).symm.trans h
    exact fetch_of_mem_eq_writeBytes pc hpc (by rw [State.block_eq_map_reg])
  · cases eq_loadImage_of_perform_done h
    exact fetch_of_mem_eq_writeBytes pc hpc rfl

end Sys2Proof.Machine
end

/-! The decoder and the encoder are inverse, and the decoder is the opcode map (30_encoding.md R74 to R81). -/
section
namespace Sys2Proof

/-- Settles O6: closed words, each evaluated by the decoder. -/
theorem specWordsDecode : Obligations.SpecWordsDecode := by
  unfold Obligations.SpecWordsDecode
  decide

/-! ### Decode of encode -/

/-- Decoding the word of a well-formed instruction gives the instruction back (R80). -/
theorem decodeWord_encode {i : Instr} (wf : i.wellFormed = true) : decodeWord (encode i) = .ok i := by
  cases i with
  | cls | ret => rfl
  | sys nnn =>
    obtain ⟨h1, h2⟩ : nnn ≠ 0x0E0#12 ∧ nnn ≠ 0x0EE#12 := by simpa [Instr.wellFormed] using wf
    have hcls : wordNNN 0x0#4 nnn ≠ 0x00E0#16 := fun e => h1 (by rw [← fieldNNN_wordNNN 0x0#4 nnn, e]; rfl)
    have hret : wordNNN 0x0#4 nnn ≠ 0x00EE#16 := fun e => h2 (by rw [← fieldNNN_wordNNN 0x0#4 nnn, e]; rfl)
    simp [encode, decodeWord, hcls, hret]
  | jp | call | ldI | jpV0 | seImm | sneImm | ldImm | addImm | rnd | seReg | sneReg | drw | skp | sknp => simp [encode, decodeWord]
  | ldReg | orReg | andReg | xorReg | addReg | subReg | shr | subnReg | shl => simp [encode, decodeWord, decodeFamily8]
  | ldVxDT | ldVxK | ldDTVx | ldST | addI | ldF | ldB | ldMemVx | ldVxMem => simp [encode, decodeWord, decodeFamilyF]

/-- Decoding two bytes decodes their word and leaves the bytes after them (R53, R76). -/
theorem decodeBytes_of_decodeWord {hi lo : Byte} {i : Instr} (h : decodeWord (wordOfBytes hi lo) = .ok i) (rest : List Byte) :
    decodeBytes (hi :: lo :: rest) = .ok (i, rest) := by
  simp only [decodeBytes, h]

/-- Settles O7: the fields of each pattern are read back, so each dispatch of the decoder picks the instruction encoded. -/
theorem decodeOfEncode : Obligations.DecodeOfEncode := by
  intro i wf
  have word := decodeWord_encode wf
  exact ⟨word, decodeBytes_of_decodeWord (by rwa [wordOfBytes_bytes])⟩

/-! ### Encode of decode -/

/-- Family 8: a word is the encoding of what it decodes to. -/
theorem encode_of_decodeFamily8 {w : Word} {i : Instr} (hf : family w = 0x8#4) (h : decodeFamily8 w = .ok i) : encode i = w := by
  unfold decodeFamily8 at h
  split at h
  case h_10 => cases h
  all_goals next hn => cases h; rw [encode, ← hf, ← hn, wordXYN_fields]

/-- Family F: a word is the encoding of what it decodes to. -/
theorem encode_of_decodeFamilyF {w : Word} {i : Instr} (hf : family w = 0xF#4) (h : decodeFamilyF w = .ok i) : encode i = w := by
  unfold decodeFamilyF at h
  split at h
  case h_10 => cases h
  all_goals next hk => cases h; rw [encode, ← hf, ← hk, wordXKK_fields]

/-- A word is the encoding of what it decodes to (R80). -/
theorem encode_of_decodeWord {w : Word} {i : Instr} (h : decodeWord w = .ok i) : encode i = w := by
  unfold decodeWord at h
  split at h
  case h_1 hf =>
    split at h
    case isTrue hcls => cases h; exact hcls.symm
    case isFalse =>
      split at h
      case isTrue hret => cases h; exact hret.symm
      case isFalse => cases h; rw [encode, ← hf, wordNNN_fields]
  case h_2 hf | h_3 hf | h_11 hf | h_12 hf => cases h; rw [encode, ← hf, wordNNN_fields]
  case h_4 hf | h_5 hf | h_7 hf | h_8 hf | h_13 hf => cases h; rw [encode, ← hf, wordXKK_fields]
  case h_6 hf | h_10 hf =>
    split at h
    case isTrue hn => cases h; rw [encode, ← hf, ← hn, wordXYN_fields]
    case isFalse => cases h
  case h_9 hf => exact encode_of_decodeFamily8 hf h
  case h_14 hf => cases h; rw [encode, ← hf, wordXYN_fields]
  case h_15 hf =>
    split at h
    case isTrue hk => cases h; rw [encode, ← hf, ← hk, wordXKK_fields]
    case isFalse =>
      split at h
      case isTrue hk => cases h; rw [encode, ← hf, ← hk, wordXKK_fields]
      case isFalse => cases h
  case h_16 hf => exact encode_of_decodeFamilyF hf h
  case h_17 => cases h

/-- Settles O8: what decodes is well-formed, and the fields of a word make up the word. -/
theorem encodeOfDecode : Obligations.EncodeOfDecode :=
  fun _ _ h => ⟨Machine.decodeWord_wellFormed h, encode_of_decodeWord h⟩

/-! ### The opcode map -/

/-- The word of a well-formed instruction lies in the instruction's row (R80). -/
theorem rowTakes_encode {i : Instr} (wf : i.wellFormed = true) : rowTakes (opcodeRow i) (encode i) = true := by
  cases i with
  | cls => exact Laws.Row.cls wf
  | ret => exact Laws.Row.ret wf
  | sys => exact Laws.Row.sys _ wf
  | jp => exact Laws.Row.jp _ wf
  | call => exact Laws.Row.call _ wf
  | seImm => exact Laws.Row.seImm _ _ wf
  | sneImm => exact Laws.Row.sneImm _ _ wf
  | seReg => exact Laws.Row.seReg _ _ wf
  | ldImm => exact Laws.Row.ldImm _ _ wf
  | addImm => exact Laws.Row.addImm _ _ wf
  | ldReg => exact Laws.Row.ldReg _ _ wf
  | orReg => exact Laws.Row.orReg _ _ wf
  | andReg => exact Laws.Row.andReg _ _ wf
  | xorReg => exact Laws.Row.xorReg _ _ wf
  | addReg => exact Laws.Row.addReg _ _ wf
  | subReg => exact Laws.Row.subReg _ _ wf
  | shr => exact Laws.Row.shr _ _ wf
  | subnReg => exact Laws.Row.subnReg _ _ wf
  | shl => exact Laws.Row.shl _ _ wf
  | sneReg => exact Laws.Row.sneReg _ _ wf
  | ldI => exact Laws.Row.ldI _ wf
  | jpV0 => exact Laws.Row.jpV0 _ wf
  | rnd => exact Laws.Row.rnd _ _ wf
  | drw => exact Laws.Row.drw _ _ _ wf
  | skp => exact Laws.Row.skp _ wf
  | sknp => exact Laws.Row.sknp _ wf
  | ldVxDT => exact Laws.Row.ldVxDT _ wf
  | ldVxK => exact Laws.Row.ldVxK _ wf
  | ldDTVx => exact Laws.Row.ldDTVx _ wf
  | ldST => exact Laws.Row.ldST _ wf
  | addI => exact Laws.Row.addI _ wf
  | ldF => exact Laws.Row.ldF _ wf
  | ldB => exact Laws.Row.ldB _ wf
  | ldMemVx => exact Laws.Row.ldMemVx _ wf
  | ldVxMem => exact Laws.Row.ldVxMem _ wf

/-- The row of every instruction is one of R80's. -/
theorem opcodeRow_mem_opcodeMap (i : Instr) : opcodeRow i ∈ opcodeMap := by
  cases i <;> simp [opcodeMap, opcodeRow]

/-- Every row of R80 is an instruction's. -/
theorem exists_opcodeRow_of_mem : ∀ r ∈ opcodeMap, ∃ i, opcodeRow i = r := by
  simp [opcodeMap]

/-- The mask 0xF000 shows the family. -/
theorem family_of_mask {w m : Word} (h : w &&& 0xF000#16 = m) : family w = family m := by
  rw [← h, family_and]; exact BitVec.and_allOnes.symm

/-- The mask 0xF00F shows the family and the low nibble. -/
theorem familyN_of_mask {w m : Word} (h : w &&& 0xF00F#16 = m) : family w = family m ∧ fieldN w = fieldN m := by
  rw [← h, family_and, fieldN_and]; exact ⟨BitVec.and_allOnes.symm, BitVec.and_allOnes.symm⟩

/-- The mask 0xF0FF shows the family and the low byte. -/
theorem familyKK_of_mask {w m : Word} (h : w &&& 0xF0FF#16 = m) : family w = family m ∧ fieldKK w = fieldKK m := by
  rw [← h, family_and, fieldKK_and]; exact ⟨BitVec.and_allOnes.symm, BitVec.and_allOnes.symm⟩

/-- A word in an instruction's row decodes to an instruction of that row (R80): the mask keeps what the decoder dispatches on. -/
theorem decodeWord_of_rowTakes {i : Instr} {w : Word} (h : rowTakes (opcodeRow i) w = true) :
    ∃ j, decodeWord w = .ok j ∧ opcodeRow j = opcodeRow i := by
  obtain ⟨mask, excluded⟩ : w &&& (opcodeRow i).mask = (opcodeRow i).matchBits ∧ w ∉ (opcodeRow i).excludes := by
    simpa [rowTakes] using h
  cases i with
  | cls | ret =>
    obtain rfl := BitVec.and_allOnes.symm.trans mask
    exact ⟨_, rfl, rfl⟩
  | sys =>
    have kept : w ≠ 0x00E0#16 ∧ w ≠ 0x00EE#16 := by simpa [opcodeRow] using excluded
    dsimp only [opcodeRow] at mask
    have hf : family w = 0x0#4 := family_of_mask mask
    exact ⟨.sys (fieldNNN w), by simp only [decodeWord, hf, kept, if_false], rfl⟩
  | jp | call | seImm | sneImm | ldImm | addImm | ldI | jpV0 | rnd | drw =>
    dsimp only [opcodeRow] at mask
    rw [decodeWord, family_of_mask mask]
    exact ⟨_, rfl, by rfl⟩
  | seReg | sneReg =>
    dsimp only [opcodeRow] at mask
    obtain ⟨hf, hn⟩ := familyN_of_mask mask
    rw [decodeWord, hf, hn]
    exact ⟨_, rfl, by rfl⟩
  | ldReg | orReg | andReg | xorReg | addReg | subReg | shr | subnReg | shl =>
    dsimp only [opcodeRow] at mask
    obtain ⟨hf, hn⟩ := familyN_of_mask mask
    rw [decodeWord, decodeFamily8, hf, hn]
    exact ⟨_, rfl, by rfl⟩
  | skp | sknp =>
    dsimp only [opcodeRow] at mask
    obtain ⟨hf, hk⟩ := familyKK_of_mask mask
    rw [decodeWord, hf, hk]
    exact ⟨_, rfl, by rfl⟩
  | ldVxDT | ldVxK | ldDTVx | ldST | addI | ldF | ldB | ldMemVx | ldVxMem =>
    dsimp only [opcodeRow] at mask
    obtain ⟨hf, hk⟩ := familyKK_of_mask mask
    rw [decodeWord, decodeFamilyF, hf, hk]
    exact ⟨_, rfl, by rfl⟩

/-- A word in a row of R80 decodes to an instruction of that row. -/
theorem decodeWord_of_mem_opcodeMap {r : OpcodeRow} {w : Word} (hr : r ∈ opcodeMap) (h : rowTakes r w = true) :
    ∃ i, decodeWord w = .ok i ∧ opcodeRow i = r := by
  obtain ⟨i, rfl⟩ := exists_opcodeRow_of_mem r hr
  exact decodeWord_of_rowTakes h

/-- Settles O9: a row's words decode to its instructions, so a rejected word is in no row and no word is in two. -/
theorem decodeFollowsOpcodeMap : Obligations.DecodeFollowsOpcodeMap := by
  intro w
  refine ⟨fun i h => ⟨opcodeRow_mem_opcodeMap i, ?_⟩, fun e h r hr => ?_, fun r₁ h₁ r₂ h₂ takes₁ takes₂ => ?_⟩
  · have takes := rowTakes_encode (Machine.decodeWord_wellFormed h)
    rwa [encode_of_decodeWord h] at takes
  · by_contra takes
    obtain ⟨i, decoded, -⟩ := decodeWord_of_mem_opcodeMap hr (Bool.eq_true_of_not_eq_false takes)
    cases h.symm.trans decoded
  · obtain ⟨i, hi, rfl⟩ := decodeWord_of_mem_opcodeMap h₁ takes₁
    obtain ⟨j, hj, rfl⟩ := decodeWord_of_mem_opcodeMap h₂ takes₂
    cases hi.symm.trans hj
    rfl

end Sys2Proof
end

/-! What a step does with the word it fetched (30_encoding.md R70 to R83): it runs the decoded instruction, or takes the fault of an
illegal word or of the fetch; and where a control transfer may go (R109). -/
section
namespace Sys2Proof.Machine

/-! ### The step, case by case -/

/-- A fetch outside memory takes `MemoryBounds`, with no word (R72, R212). -/
theorem step_of_fetch_error {s : State} {a : Nat} (running : s.Running) (hf : s.fetch = .error a) :
    step s = .next (s.takeFault .memoryBounds none (some a)) := by
  simp only [step, show s.status = .running from running, hf]

/-- A word outside the opcode map takes `UnknownInstruction` (R74, R81). -/
theorem step_of_decodeWord_error {s : State} {w : Word} {e : DecodeReject} (running : s.Running) (hf : s.fetch = .ok w)
    (hd : decodeWord w = .error e) : step s = .next (s.takeFault .unknownInstruction (some w) none) := by
  simp only [step, show s.status = .running from running, hf, hd]

/-- A word of the opcode map is run as what it decodes to (R70). -/
theorem step_of_decodeWord {s : State} {w : Word} {i : Instr} (running : s.Running) (hf : s.fetch = .ok w)
    (hd : decodeWord w = .ok i) : step s = exec i s := by
  simp only [step, show s.status = .running from running, hf, hd]

/-- Settles O10: the fetched word is the two bytes, and the step runs what it decodes to. -/
theorem stepRunsDecodedInstruction : Obligations.StepRunsDecodedInstruction := by
  intro s i running hpc h
  refine step_of_decodeWord running (fetch_of_inRange hpc) ?_
  simp only [decodeBytes] at h
  split at h
  case h_1 hd => cases h; exact hd
  case h_2 => cases h

/-- Settles O11: within memory the fetched word's bytes are those at `PC` and after it, outside it the step faults. -/
theorem fetchIsBigEndianAndBounded : Obligations.FetchIsBigEndianAndBounded := by
  intro s
  refine ⟨fun inside => ⟨_, fetch_of_inRange inside, highByte_wordOfBytes _ _, lowByte_wordOfBytes _ _⟩, fun running outside => ?_⟩
  rcases fetch_cases s with ⟨inside, -⟩ | ⟨-, error⟩
  · omega
  · exact ⟨_, step_of_fetch_error running error, faultTaken_takeFault ..⟩

/-- Settles O12: a step consults `STATUS` first, and what it returns is the record there. -/
theorem faultedStepChangesNothing : Obligations.FaultedStepChangesNothing := by
  intro s r faulted
  exact ⟨by simp only [step, faulted], by simp only [State.stepReturn, faulted]⟩

/-- Every instruction answers a next state: each completes or raises a fault, which is taken. -/
theorem exec_returns (i : Instr) (s : State) : ∃ t, exec i s = .next t := by
  rcases exec_keepsToTables i s with ⟨k, a, raises, -⟩ | ⟨t, completes, -⟩
  · exact ⟨_, raises.trans (raise_eq ..)⟩
  · exact ⟨t, completes⟩

/-- Settles O14: a step stays, takes a fault, or is an instruction's. -/
theorem stepAlwaysReturns : Obligations.StepAlwaysReturns := by
  intro s
  rcases step_cases s with ⟨_, -, stays⟩ | ⟨-, ⟨_, -, faults⟩ | ⟨_, _, -, -, faults⟩ | ⟨_, i, -, -, runs⟩⟩
  · exact ⟨_, stays⟩
  · exact ⟨_, faults⟩
  · exact ⟨_, faults⟩
  · rw [runs]; exact exec_returns i s

/-! ### Illegal words -/

/-- No instruction's word is one of R81's illegal words. -/
theorem illegalWord_encode (i : Instr) : illegalWord (encode i) = false := by
  simp only [illegalWord, ← toNat_family, ← toNat_fieldN, ← toNat_fieldKK]
  cases i with
  | cls | ret => rfl
  | _ => simp [encode]

/-- The decoder rejects R81's illegal words. -/
theorem decodeWord_of_illegalWord {w : Word} (h : illegalWord w = true) : ∃ e, decodeWord w = .error e := by
  cases hd : decodeWord w with
  | error e => exact ⟨e, rfl⟩
  | ok i =>
    rw [← encode_of_decodeWord hd, illegalWord_encode] at h
    cases h

/-- A family-0 word other than 00E0 and 00EE decodes to SYS (R80). -/
theorem decodeWord_of_family0 {w : Word} (h : w.toNat < 0x1000) (hcls : w ≠ 0x00E0#16) (hret : w ≠ 0x00EE#16) :
    decodeWord w = .ok (.sys (fieldNNN w)) := by
  have hf : family w = 0x0#4 := BitVec.eq_of_toNat_eq (by rw [toNat_family]; exact Nat.div_eq_of_lt h)
  simp only [decodeWord, hf, hcls, hret, if_false]

/-- Settles O13: a family-0 word runs as SYS, whose word is the fetched one; the decoder rejects the other illegal words. -/
theorem illegalWordsFault : Obligations.IllegalWordsFault := by
  intro s w running hf
  refine ⟨fun family0 hcls hret => ?_, fun illegal => ?_⟩
  · have hd := decodeWord_of_family0 family0 hcls hret
    have raises : step s = s.raise (.sys (fieldNNN w)) .unsupportedInstruction none := step_of_decodeWord running hf hd
    rw [raise_eq, encode_of_decodeWord hd] at raises
    exact ⟨_, raises, faultTaken_takeFault ..⟩
  · obtain ⟨e, hd⟩ := decodeWord_of_illegalWord illegal
    exact ⟨_, step_of_decodeWord_error running hf hd, faultTaken_takeFault ..⟩

/-! ### The result record and the next `PC` -/

/-- Settles O23: an instruction that ends Running has completed, with its result record. -/
theorem resultRecordByInstruction : Obligations.ResultRecordByInstruction := by
  intro i s t _ h running
  exact ⟨(completesListed_of_running h running).report, resultOf_exclusive i s⟩

/-- A skip goes on at the next instruction or the one after it (R79). -/
theorem pc_skipIf_advance (s : State) (c : Bool) : (s.advance.skipIf c).pc ∈ [s.pc + 2#16, s.pc + 4#16] := by
  cases c <;> simp [BitVec.add_assoc]

/-- Settles O24: the listed values of `PC`, instruction by instruction; one that faults does not end Running. -/
theorem controlTransfersAreListed : Obligations.ControlTransfersAreListed := by
  intro i s t _ h running
  cases i with
  | cls | ldImm | addImm | ldReg | orReg | andReg | xorReg | addReg | subReg | shr | subnReg | shl | ldI | rnd | ldVxDT | ldVxK
  | ldDTVx | ldST | addI | ldF | jp | jpV0 => cases h; exact List.mem_singleton.2 rfl
  | seImm | sneImm | seReg | sneReg => cases h; exact pc_skipIf_advance ..
  | sys => cases h; cases running
  | ret =>
    simp only [exec, execRet] at h
    split at h
    case h_1 => cases h; cases running
    case h_2 top rest hs => cases h; simp [nextPCs, hs]
  | call =>
    simp only [exec, execCall] at h
    split at h
    case isTrue => cases h; cases running
    case isFalse => cases h; exact List.mem_singleton.2 rfl
  | skp | sknp =>
    simp only [exec, execSkp, execSknp] at h
    split at h
    case h_1 => cases h; cases running
    case h_2 => cases h; exact pc_skipIf_advance ..
  | ldB | ldMemVx | ldVxMem =>
    simp only [exec, execLdB, execLdMemVx, execLdVxMem] at h
    split at h
    case h_1 => cases h; cases running
    case h_2 => cases h; exact List.mem_singleton.2 rfl
  | drw =>
    simp only [exec, execDrw] at h
    split at h
    case h_1 => cases h; cases running
    case h_2 =>
      split at h
      case h_1 => cases h; cases running
      case h_2 => cases h; exact List.mem_singleton.2 rfl

/-! ### What the last step returned -/

/-- What the last step returned is in `STATUS` and the result record alone. -/
theorem State.stepReturn_congr {s t : State} (hs : t.status = s.status) (hr : t.report = s.report) : t.stepReturn = s.stepReturn := by
  simp only [State.stepReturn, hs, hr]

@[simp] theorem State.tick_status (s : State) : s.tick.status = s.status := by
  unfold State.tick; split <;> rfl
@[simp] theorem State.tick_report (s : State) : s.tick.report = s.report := by
  unfold State.tick; split <;> rfl

/-- Apart from a reset by the host, only `step` writes `STATUS` or the result record. -/
theorem perform_keeps_status_and_report {op : HostOp} {s t : State} {reply : HostReply} (hstep : op ≠ .step) (hreinit : op ≠ .reinit)
    (h : perform op s = .next (t, reply)) : t.status = s.status ∧ t.report = s.report := by
  cases op with
  | step => exact (hstep rfl).elim
  | reinit => exact (hreinit rfl).elim
  | loadProgram image =>
    simp only [perform] at h
    split at h <;> cases h <;> exact ⟨rfl, rfl⟩
  | tick => cases h; exact ⟨s.tick_status, s.tick_report⟩
  | setKeys | resolveWait | readState | dumpState => cases h; exact ⟨rfl, rfl⟩

/-- Settles O55: `STATUS` and the result record stay, and a reset leaves a Running core with no result record. -/
theorem hostOperationsKeepStepReturn : Obligations.HostOperationsKeepStepReturn := by
  intro op s t reply hstep h
  refine ⟨fun hreinit => ?_, fun hreinit => ?_⟩
  · obtain ⟨status, report⟩ := perform_keeps_status_and_report hstep hreinit h
    exact ⟨report, State.stepReturn_congr status report⟩
  · subst hreinit
    cases h
    rfl

end Sys2Proof.Machine
end

/-! Control transfer (40_control.md R100 to R109, 60_exceptions.md R238): an instruction that answers a result record has completed
within its row of the tables, so each statement is left with what `PC` and the stack become. -/
section
namespace Sys2Proof.Machine

/-! ### Completing and faulting -/

/-- An instruction that answers a result record has completed: a fault returns none (R212). -/
theorem completesListed_of_report {i : Instr} {s t : State} {r : Report} (h : exec i s = .next t) (hr : t.report = some r) :
    CompletesListed i s t := by
  rcases exec_keepsToTables i s with ⟨k, a, he, -, -⟩ | ⟨u, he, completes⟩
  · cases he.symm.trans h
    cases hr
  · cases he.symm.trans h
    exact completes

/-- Such an instruction keeps to the frame the tables list for it. -/
theorem completes_of_exec {i : Instr} {s t : State} {r : Report} {pc : Word} {post : State → Prop} (h : exec i s = .next t)
    (hr : t.report = some r) (hpc : t.pc = pc) (hpost : post t) : Completes i s (regsWritten i) (partsWritten i) pc r post :=
  ⟨t, h, hpc, hr, (completesListed_of_report h hr).frame, hpost⟩

theorem faults_of_raise {i : Instr} {s : State} {k : FaultKind} {a : Option Nat} (h : exec i s = s.raise i k a) : Faults i s k a :=
  ⟨_, h.trans (raise_eq ..), faultTaken_takeFault ..⟩

/-! ### Jumps -/

@[simp] theorem toNat_addrOperand (nnn : Addr12) : (addrOperand nnn).toNat = nnn.toNat :=
  BitVec.toNat_setWidth_of_le (by decide)

/-- A byte and a 12-bit address add up within 16 bits: the sum does not wrap (R108). -/
@[simp] theorem toNat_jumpTarget (v0 : Byte) (nnn : Addr12) : (jumpTarget v0 nnn).toNat = v0.toNat + nnn.toNat := by
  have hv0 := v0.isLt
  have hnnn := nnn.isLt
  rw [jumpTarget, BitVec.toNat_add, toNat_addrOperand, BitVec.toNat_setWidth_of_le (by decide)]
  omega

theorem jumpTarget_eq_ofNat (v0 : Byte) (nnn : Addr12) : jumpTarget v0 nnn = BitVec.ofNat 16 (v0.toNat + nnn.toNat) := by
  rw [← toNat_jumpTarget, BitVec.ofNat_toNat, BitVec.setWidth_eq]

/-- Settles O26: the jump writes `PC` only. -/
theorem jumpSetsPc : Obligations.JumpSetsPc := by
  intro nnn s
  exact completes_of_exec rfl rfl rfl (toNat_addrOperand nnn)

/-- Settles O27: the jump writes `PC` only, and its 16-bit sum is the sum of the numbers. -/
theorem computedJumpAddsV0 : Obligations.ComputedJumpAddsV0 := by
  intro nnn s
  exact completes_of_exec rfl rfl (jumpTarget_eq_ofNat _ nnn) (toNat_jumpTarget _ nnn)

/-- A jump to its own address leaves all but the result record as it was (R102). -/
theorem exec_jp_self {s : State} {nnn : Addr12} (h : s.pc.toNat = nnn.toNat) :
    exec (.jp nnn) s = .next { s with report := some {} } := by
  have target : addrOperand nnn = s.pc := BitVec.eq_of_toNat_eq ((toNat_addrOperand nnn).trans h.symm)
  rw [exec, execJp, target]
  rfl

/-- Settles O25: the step runs the jump to its own address, and idleness does not depend on the result record. -/
theorem idleStepChangesNothing : Obligations.IdleStepChangesNothing := by
  intro s ⟨running, nnn, hf, hpc⟩
  have runs : step s = exec (.jp nnn) s := step_of_decodeWord running hf (decodeWord_encode rfl)
  exact ⟨runs.trans (exec_jp_self hpc), running, nnn, hf, hpc⟩

/-! ### Call and return -/

theorem exec_call_of_full {s : State} (nnn : Addr12) (full : stackDepth ≤ s.stack.length) :
    exec (.call nnn) s = s.raise (.call nnn) .stackOverflow none := if_pos full

theorem exec_call_of_room {s : State} (nnn : Addr12) (room : s.stack.length < stackDepth) :
    exec (.call nnn) s = .next { s.advance with pc := addrOperand nnn, stack := (s.pc + 2#16) :: s.stack } :=
  if_neg (Nat.not_le_of_lt room)

theorem exec_ret_of_nil {s : State} (hs : s.stack = []) : exec .ret s = s.raise .ret .stackUnderflow none := by
  simp only [exec, execRet, hs]

theorem exec_ret_of_cons {s : State} {top : Word} {rest : List Word} (hs : s.stack = top :: rest) :
    exec .ret s = .next { s.advance with pc := top, stack := rest } := by
  simp only [exec, execRet, hs]

/-- Settles O28: a call with room completes, one at capacity raises its fault. -/
theorem callPushesReturnAddress : Obligations.CallPushesReturnAddress := by
  intro nnn s
  exact ⟨fun room => completes_of_exec (exec_call_of_room nnn room) rfl rfl rfl,
    fun full => faults_of_raise (exec_call_of_full nnn full.ge)⟩

/-- Settles O29: a return from a non-empty stack completes, one from the empty stack raises its fault. -/
theorem returnPopsStack : Obligations.ReturnPopsStack := by
  intro s
  exact ⟨fun top rest hs => completes_of_exec (exec_ret_of_cons hs) rfl rfl rfl, fun hs => faults_of_raise (exec_ret_of_nil hs)⟩

/-- A stack that is back to what it was need not be named in the frame. -/
theorem UnchangedBut.stack_restored {rs : List RegIdx} {ps : List Part} {s t : State} (h : UnchangedBut rs (.stack :: ps) s t)
    (hs : t.stack = s.stack) : UnchangedBut rs ps s t where
  regs := h.regs
  index hp := h.index (by simp [hp])
  stack _ := hs
  timer hp := h.timer (by simp [hp])
  keys hp := h.keys (by simp [hp])
  memory hp := h.memory (by simp [hp])
  frame hp := h.frame (by simp [hp])
  status hp := h.status (by simp [hp])
  draws hp := h.draws (by simp [hp])

/-- Settles O30: what the call pushed (O28) is what the return pops (O29). -/
theorem callThenReturn : Obligations.CallThenReturn := by
  intro nnn s t room hcall
  obtain ⟨_, he, -, -, called, pushed⟩ := (callPushesReturnAddress nnn s).1 room
  cases he.symm.trans hcall
  obtain ⟨u, hret, hpc, -, returned, popped⟩ := (returnPopsStack t).1 _ _ pushed
  exact ⟨u, hret, hpc, popped, (called.trans returned).stack_restored popped⟩

/-! ### SYS -/

/-- Settles O31: SYS is its fault. -/
theorem sysRaisesUnsupported : Obligations.SysRaisesUnsupported := by
  intro nnn s
  exact faults_of_raise rfl

/-! ### Skips -/

/-- A skip from `pc0 + 2` goes on at `pc0 + 4` exactly where its condition holds (R73, R79). -/
theorem pc_skipIf_advance_eq (s : State) (c : Bool) :
    (s.advance.skipIf c).pc = if c = true then s.pc + 4#16 else s.pc + 2#16 := by
  cases c <;> simp [BitVec.add_assoc]

/-- An instruction that is a skip on `c` completes, skipping exactly where `c` holds. -/
theorem completes_of_skipIf {i : Instr} {s : State} {c : Bool} {P : Prop} [Decidable P]
    (h : exec i s = .next (s.advance.skipIf c)) (hc : c = true ↔ P) :
    Completes i s (regsWritten i) (partsWritten i) (if P then s.pc + 4#16 else s.pc + 2#16) {} (fun _ => True) := by
  refine completes_of_exec h (State.skipIf_report ..) ?_ trivial
  rw [pc_skipIf_advance_eq]
  exact if_congr hc rfl rfl

/-- Settles O32: each is a skip on its comparison. -/
theorem skipsCompareRegisters : Obligations.SkipsCompareRegisters := by
  intro x y kk s
  exact ⟨completes_of_skipIf rfl beq_iff_eq, completes_of_skipIf rfl bne_iff_ne, completes_of_skipIf rfl beq_iff_eq,
    completes_of_skipIf rfl bne_iff_ne⟩

end Sys2Proof.Machine
end

/-! Register arithmetic and logic (41_alu.md R120 to R132): an instruction of this family is one register write, with or without a flag
write after it, so each statement is left with the values written. -/
section
namespace Sys2Proof.Machine

/-! ### The values written -/

@[simp] theorem flagByte_decide (p : Prop) [Decidable p] : flagByte (decide p) = if p then 1#8 else 0#8 := by
  simp only [flagByte, decide_eq_true_eq]

theorem carryFlag_eq (a b : Byte) : carryFlag a b = if a.toNat + b.toNat > 255 then 1#8 else 0#8 := flagByte_decide _

theorem notBorrowFlag_eq (a b : Byte) : notBorrowFlag a b = if a.toNat > b.toNat then 1#8 else 0#8 := flagByte_decide _

/-- The flag of a right shift is the bit that halving drops. -/
theorem toNat_shiftRightFlag (a : Byte) : (shiftRightFlag a).toNat = a.toNat % 2 := by
  rw [shiftRightFlag, BitVec.toNat_and]
  exact Nat.and_one_is_mod _

/-- The flag of a left shift is the bit that doubling carries out. -/
theorem toNat_shiftLeftFlag (a : Byte) : (shiftLeftFlag a).toNat = a.toNat / 128 := by
  rw [shiftLeftFlag, BitVec.toNat_ushiftRight, Nat.shiftRight_eq_div_pow]

/-- Subtraction wraps modulo 256 over the integers (R132). -/
theorem toNat_byte_sub (a b : Byte) : ((a - b).toNat : Int) = ((a.toNat : Int) - b.toNat) % 256 := by
  have hb := b.isLt
  rw [BitVec.toNat_sub]
  omega

/-! ### The writes -/

/-- After a register and flag write `VF` reads as the flag, whichever register was written (R12, R22). -/
theorem State.reg_setRegFlag_flag (s : State) (x : RegIdx) (b c : Byte) : (s.setRegFlag x b c).reg 0xF#4 = c :=
  State.reg_setReg_same ..

theorem State.reg_setRegFlag_ne (s : State) {x : RegIdx} (b c : Byte) (hx : x ≠ 0xF#4) : (s.setRegFlag x b c).reg x = b :=
  (State.reg_setReg_ne _ c hx).trans (State.reg_setReg_same ..)

/-- An instruction that is one register write completes, and all a statement says of the state after it follows from that register. -/
theorem completes_of_setReg {i : Instr} {s : State} {x : RegIdx} {b : Byte} {post : State → Prop}
    (h : exec i s = .next (s.advance.setReg x b)) (hpost : ∀ t : State, t.reg x = b → post t) :
    Completes i s (regsWritten i) (partsWritten i) (s.pc + 2#16) {} post :=
  completes_of_exec h rfl rfl (hpost _ (State.reg_setReg_same ..))

/-- An instruction that is a register and flag write completes: `VF` holds the flag, and the register its value unless it is `VF` (R12). -/
theorem completes_of_setRegFlag {i : Instr} {s : State} {x : RegIdx} {b c : Byte} {post : State → Prop}
    (h : exec i s = .next (s.advance.setRegFlag x b c))
    (hpost : ∀ t : State, (x ≠ 0xF#4 → t.reg x = b) → t.reg 0xF#4 = c → post t) :
    Completes i s (regsWritten i) (partsWritten i) (s.pc + 2#16) {} post :=
  completes_of_exec h rfl rfl (hpost _ (State.reg_setRegFlag_ne _ b c) (State.reg_setRegFlag_flag _ x b c))

/-- An instruction that writes the difference `a - b` and its flag: both statements about subtraction are this one. -/
theorem completes_of_subtract {i : Instr} {s : State} {x : RegIdx} {a b : Byte}
    (h : exec i s = .next (s.advance.setRegFlag x (a - b) (notBorrowFlag a b))) :
    Completes i s (regsWritten i) (partsWritten i) (s.pc + 2#16) {} (fun t =>
      (x ≠ 0xF#4 → ((t.reg x).toNat : Int) = ((a.toNat : Int) - b.toNat) % 256) ∧
      t.reg 0xF#4 = if a.toNat > b.toNat then 1#8 else 0#8) := by
  refine completes_of_setRegFlag h fun t written flag => ⟨fun hx => ?_, ?_⟩
  · rw [written hx, toNat_byte_sub]
  · rw [flag, notBorrowFlag_eq]

/-- What Cxkk does: it draws the byte, then writes it masked. -/
theorem exec_rnd (x : RegIdx) (kk : Byte) (s : State) :
    exec (.rnd x kk) s = .next (s.advance.drawByte.2.setReg x (Config.randomByte s.draws &&& kk)) := rfl

/-! ### The statements -/

/-- Settles O33: each is a write of the value it loads. -/
theorem loadsWriteDestination : Obligations.LoadsWriteDestination := by
  intro x y kk s
  exact ⟨completes_of_setReg rfl fun _ written => written, completes_of_setReg rfl fun _ written => written⟩

/-- Settles O34: the sum of the bytes is the sum of the numbers modulo 256. -/
theorem addImmediateWraps : Obligations.AddImmediateWraps := by
  intro x kk s
  refine completes_of_setReg rfl fun t written => ?_
  rw [written, BitVec.toNat_add]

/-- Settles O35: each bit of the value written is that of the two operands' bits. -/
theorem logicIsBitwise : Obligations.LogicIsBitwise := by
  intro x y s
  refine ⟨completes_of_setReg rfl fun t written b _ => ?_, completes_of_setReg rfl fun t written b _ => ?_,
    completes_of_setReg rfl fun t written b _ => ?_⟩
  · rw [written, BitVec.getLsbD_or]
  · rw [written, BitVec.getLsbD_and]
  · rw [written, BitVec.getLsbD_xor]

/-- Settles O36: the sum wraps, and the flag is the carry. -/
theorem addSetsCarry : Obligations.AddSetsCarry := by
  intro x y s
  refine completes_of_setRegFlag rfl fun t written flag => ⟨fun hx => ?_, ?_⟩
  · rw [written hx, BitVec.toNat_add]
  · rw [flag, carryFlag_eq]

/-- Settles O37: both differences wrap, and the flag is the strict comparison of the same two operands. -/
theorem subtractSetsNotBorrow : Obligations.SubtractSetsNotBorrow := by
  intro x y s
  exact ⟨completes_of_subtract rfl, completes_of_subtract rfl⟩

/-- Settles O38: one shift halves and the other doubles modulo 256, and the flag is the bit that is lost. -/
theorem shiftsMoveOneBit : Obligations.ShiftsMoveOneBit := by
  intro x y s
  refine ⟨completes_of_setRegFlag rfl fun t written flag => ⟨fun hx => ?_, ?_⟩,
    completes_of_setRegFlag rfl fun t written flag => ⟨fun hx => ?_, ?_⟩⟩
  · rw [written hx, BitVec.toNat_ushiftRight, Nat.shiftRight_eq_div_pow]
  · rw [flag, toNat_shiftRightFlag]
  · rw [written hx, BitVec.toNat_shiftLeft, Nat.shiftLeft_eq]
  · rw [flag, toNat_shiftLeftFlag]

/-- Settles O39: the byte drawn is masked and written, and the counter has moved on; a zero mask clears it, a full one keeps it. -/
theorem randomIsMaskedFreeByte : Obligations.RandomIsMaskedFreeByte := by
  intro x kk s
  refine completes_of_exec (exec_rnd x kk s) rfl rfl ⟨State.reg_setReg_same .., rfl, fun hkk => ?_, fun hkk => ?_⟩
  · rw [State.reg_setReg_same, hkk, BitVec.and_zero]
  · rw [State.reg_setReg_same, hkk]
    exact BitVec.and_allOnes

end Sys2Proof.Machine
end

/-! The index register and memory transfers (42_index_memory.md R150 to R156): what `I` becomes, and what the bytes and registers of a
transfer hold after it. -/
section
namespace Sys2Proof.Machine

/-! ### The new `I` -/

/-- A byte added to `I` wraps at 2^16 (R151). -/
theorem toNat_indexPlus (i : Word) (a : Byte) : (indexPlus i a).toNat = (i.toNat + a.toNat) % 65536 := by
  rw [indexPlus, BitVec.toNat_add, BitVec.toNat_setWidth_of_le (by decide)]

/-- The glyph address of any byte fits in 16 bits: five times it is at most 0x4FB (R152). -/
theorem toNat_glyphAddr (a : Byte) : (glyphAddr a).toNat = 5 * a.toNat := by
  have ha := a.isLt
  rw [glyphAddr, BitVec.toNat_ofNat]
  exact Nat.mod_eq_of_lt (show 5 * a.toNat < 2 ^ 16 by omega)

theorem toNat_indexAfterBlock (i : Word) (x : RegIdx) : (indexAfterBlock i x).toNat = (i.toNat + x.toNat + 1) % 65536 :=
  BitVec.toNat_ofNat ..

/-- Settles O40: each writes `I` only. -/
theorem indexRegisterLoads : Obligations.IndexRegisterLoads := by
  intro nnn x s
  exact ⟨completes_of_exec rfl rfl rfl (toNat_addrOperand nnn), completes_of_exec rfl rfl rfl (toNat_indexPlus ..),
    completes_of_exec rfl rfl rfl (toNat_glyphAddr _)⟩

/-- Settles O41: `I` is five times the digit and memory is as before, so the five bytes are among the eighty of the font. -/
theorem glyphAddressedByIndex : Obligations.GlyphAddressedByIndex := by
  intro x s t fontInPlace digit h
  obtain ⟨_, he, -, -, frame, hi⟩ := (indexRegisterLoads 0 x s).2.2
  cases he.symm.trans h
  have glyph : ∀ k < 5, t.mem.read (t.i.toNat + k) = font.getD (5 * (s.reg x).toNat + k) 0#8 := fun k hk => by
    rw [frame.memory (by decide), hi]
    exact fontInPlace _ (by omega)
  refine ⟨glyph, fun hA => ?_⟩
  rw [List.map_congr_left fun k hk => glyph k (List.mem_range.1 hk), hA]
  decide

/-! ### The bounds check -/

/-- A transfer from `I` that does not fit in memory faults with the first address past its end (R55). -/
theorem faults_memoryBounds {i : Instr} {s : State} {len : Nat} (outside : memSize ≤ s.i.toNat + len)
    (raises : ∀ a, firstOutOfRange s.i.toNat (len + 1) = some a → exec i s = s.raise i .memoryBounds (some a)) :
    Faults i s .memoryBounds (some (max s.i.toNat memSize)) :=
  faults_of_raise (raises _ (firstOutOfRange_eq_some.2 ⟨Nat.succ_pos _, Nat.lt_succ_of_le outside, rfl⟩))

theorem exec_ldB_of_outOfRange {x : RegIdx} {s : State} {a : Nat} (hb : firstOutOfRange s.i.toNat 3 = some a) :
    exec (.ldB x) s = s.raise (.ldB x) .memoryBounds (some a) := by
  simp only [exec, execLdB, hb]

theorem exec_ldMemVx_of_outOfRange {x : RegIdx} {s : State} {a : Nat}
    (hb : firstOutOfRange s.i.toNat (blockLength x) = some a) :
    exec (.ldMemVx x) s = s.raise (.ldMemVx x) .memoryBounds (some a) := by
  simp only [exec, execLdMemVx, hb]

theorem exec_ldVxMem_of_outOfRange {x : RegIdx} {s : State} {a : Nat}
    (hb : firstOutOfRange s.i.toNat (blockLength x) = some a) :
    exec (.ldVxMem x) s = s.raise (.ldVxMem x) .memoryBounds (some a) := by
  simp only [exec, execLdVxMem, hb]

/-- Fx65, once its check has passed. -/
theorem exec_ldVxMem_of_check {x : RegIdx} (s : State) (hb : firstOutOfRange s.i.toNat (blockLength x) = none) :
    exec (.ldVxMem x) s = .next { s.advance with v := loadBlock s.v s.mem s.i.toNat x, i := indexAfterBlock s.i x } := by
  simp only [exec, execLdVxMem, hb]

/-! ### Decimal digits -/

/-- Each digit fits in its byte. -/
theorem bcdDigits_map_toNat (a : Byte) :
    (bcdDigits a).map BitVec.toNat = [a.toNat / 100, a.toNat / 10 % 10, a.toNat % 10] := by
  have ha := a.isLt
  simp only [bcdDigits, List.map_cons, List.map_nil, BitVec.toNat_ofNat, List.cons.injEq, and_true]
  omega

/-- The digits stored at `base` are read back as the digits of the number. -/
theorem toNat_read_writeBytes_bcdDigits (m : Memory) (base : Nat) (a : Byte) {k : Nat} (hk : k < 3) :
    ((m.writeBytes base (bcdDigits a)).read (base + k)).toNat = [a.toNat / 100, a.toNat / 10 % 10, a.toNat % 10][k] := by
  have stored : k < (bcdDigits a).length := hk
  have digit := List.getElem_of_eq (bcdDigits_map_toNat a) (i := k) (by rwa [List.length_map])
  rwa [List.getElem_map, ← Memory.read_writeBytes_inside m base _ k stored] at digit

/-- Settles O42: the three digits are read back at their places, every other byte is outside the store. -/
theorem bcdStoresDigits : Obligations.BcdStoresDigits := by
  intro x s
  refine ⟨fun fits => ?_, fun outside => faults_memoryBounds outside fun _ => exec_ldB_of_outOfRange⟩
  have digit {k : Nat} (hk : k < 3) := toNat_read_writeBytes_bcdDigits s.mem s.i.toNat (s.reg x) hk
  exact completes_of_exec (exec_ldB_of_check s (firstOutOfRange_eq_none.2 (.inr fits))) rfl rfl
    ⟨digit (k := 0) (by decide), digit (k := 1) (by decide), digit (k := 2) (by decide),
      fun a ha => Memory.read_writeBytes_outside s.mem ha⟩

/-! ### Register blocks -/

/-- A register stored by Fx55 is read back at its place. -/
theorem read_writeBytes_block (m : Memory) (base : Nat) (s : State) {x r : RegIdx} (hr : r.toNat ≤ x.toNat) :
    (m.writeBytes base (s.block x)).read (base + r.toNat) = s.reg r := by
  have stored : r.toNat < (s.block x).length := by rw [State.block_length]; exact Nat.lt_succ_of_le hr
  rw [Memory.read_writeBytes_inside m base _ _ stored, State.block_getElem]

/-- Every byte outside the block Fx55 stores is left alone. -/
theorem read_writeBytes_block_outside (m : Memory) {base a : Nat} (s : State) {x : RegIdx}
    (ha : a < base ∨ base + x.toNat < a) : (m.writeBytes base (s.block x)).read a = m.read a := by
  refine Memory.read_writeBytes_outside m ?_
  rw [State.block_length]
  exact ha

/-- Settles O43: the registers are read back at their places, every other byte is outside the store. -/
theorem blockStoreWritesRegisters : Obligations.BlockStoreWritesRegisters := by
  intro x s
  refine ⟨fun fits => ?_, fun outside => faults_memoryBounds outside fun _ => exec_ldMemVx_of_outOfRange⟩
  exact completes_of_exec (exec_ldMemVx_of_check s (firstOutOfRange_eq_none.2 (.inr fits))) rfl rfl
    ⟨fun r hr => read_writeBytes_block _ _ s hr, fun a ha => read_writeBytes_block_outside _ s ha, toNat_indexAfterBlock ..⟩

/-- Settles O44: the loop leaves each register of the block its byte, and every other register what it held. -/
theorem blockLoadReadsRegisters : Obligations.BlockLoadReadsRegisters := by
  intro x s
  refine ⟨fun fits => ?_, fun outside => faults_memoryBounds outside fun _ => exec_ldVxMem_of_outOfRange⟩
  have loaded (r : RegIdx) := loadBlock_getElem s.v s.mem s.i.toNat x r.toNat r.isLt
  exact completes_of_exec (exec_ldVxMem_of_check s (firstOutOfRange_eq_none.2 (.inr fits))) rfl rfl
    ⟨fun r hr => (loaded r).trans (if_pos hr), fun r hr => (loaded r).trans (if_neg (Nat.not_le_of_lt hr)),
      toNat_indexAfterBlock ..⟩

/-- Settles O45: what the load (O44) reads from the bytes at `I` is what the store (O43) put there. -/
theorem storeThenLoadRestoresRegisters : Obligations.StoreThenLoadRestoresRegisters := by
  intro x s t u fits hstore hmem hi
  obtain ⟨_, he, -, -, -, stored, -, storeIndex⟩ := (blockStoreWritesRegisters x s).1 fits
  cases he.symm.trans hstore
  obtain ⟨w, hload, -, -, -, loaded, -, loadIndex⟩ := (blockLoadReadsRegisters x u).1 (by rwa [hi])
  rw [hi] at loaded loadIndex
  refine ⟨w, hload, BitVec.eq_of_toNat_eq (loadIndex.trans storeIndex.symm), fun r hr => ?_⟩
  rw [loaded r hr, hmem, stored r hr]

end Sys2Proof.Machine
end

/-! Clear and draw (43_display.md R170 to R174): what Dxyn leaves on the screen and in `VF`, and that both checks come before any write;
what R173 and R174 infer about a draw follows from that alone. -/
section
namespace Sys2Proof.Machine

/-! ### Clear -/

/-- Settles O47: the screen written is the blank one. -/
theorem clearScreenZeroesPixels : Obligations.ClearScreenZeroesPixels := by
  intro s
  exact completes_of_exec rfl rfl rfl fun px py _ _ => Framebuffer.pixel_blank px py

/-! ### The checks of Dxyn -/

theorem exec_drw_of_outOfRange {x y : RegIdx} {n : Nibble} {s : State} {a : Nat}
    (hb : firstOutOfRange s.i.toNat n.toNat = some a) :
    exec (.drw x y n) s = s.raise (.drw x y n) .memoryBounds (some a) := by
  simp only [exec, execDrw, hb]

theorem exec_drw_of_badRow {x y : RegIdx} {n : Nibble} {s : State} {r : Nat} (hb : firstOutOfRange s.i.toNat n.toNat = none)
    (hrow : firstBadRow (s.reg y).toNat n.toNat = some r) :
    exec (.drw x y n) s = s.raise (.drw x y n) .drawRowOutOfRange (some r) := by
  simp only [exec, execDrw, hb, hrow]

theorem nibble_toNat_pos {n : Nibble} (hn : n ≠ 0#4) : 1 ≤ n.toNat :=
  Nat.pos_of_ne_zero fun h => hn (BitVec.eq_of_toNat_eq h)

/-! ### What a draw leaves -/

/-- The sprite is XORed into the screen; the registers and `VF` have no part in it. -/
theorem State.pixel_drawn (s : State) (rowAt : Nat → Byte) {xs ys n px py : Nat} (hr : ys + n ≤ 32 ∨ n = 0) (hx : px < 64) :
    (s.drawn rowAt xs ys n).fb.pixel px py = xor (s.fb.pixel px py) (spritePixel rowAt xs ys n px py) :=
  pixel_drawSprite rowAt xs ys n _ hr hx

/-- `VF` is the collision of bit 0 of the last row (R173). -/
theorem State.reg_drawn_flag (s : State) (rowAt : Nat → Byte) {xs ys n : Nat} (hn : 1 ≤ n) (hr : ys + n ≤ 32) :
    (s.drawn rowAt xs ys n).reg 0xF#4 =
      if (rowAt (n - 1)).getLsbD 0 = true ∧ s.fb.pixel ((xs + 7) % 64) (ys + n - 1) = true then 1#8 else 0#8 :=
  (State.reg_setReg_same ..).trans (flag_drawSprite rowAt xs ys n _ hn hr)

theorem regsWritten_drw_subset (x y : RegIdx) (n : Nibble) : regsWritten (.drw x y n) ⊆ [0xF#4] := by
  simp only [regsWritten]
  split
  · exact List.nil_subset _
  · exact List.Subset.refl _

/-- Settles O48: where the checks pass the sprite is drawn on the state before, and each check that fails raises its fault. -/
theorem drawXorsSprite : Obligations.DrawXorsSprite := by
  intro x y n s
  refine ⟨fun fits => ?_, fun hn outside => ?_, fun hn inside badRow => ?_⟩
  · have memoryOk : firstOutOfRange s.i.toNat n.toNat = none := firstOutOfRange_eq_none.2 (by bv_omega)
    have rowsOk : (s.reg y).toNat + n.toNat ≤ 32 ∨ n.toNat = 0 := by bv_omega
    have he := exec_drw_of_checks (x := x) s memoryOk (firstBadRow_eq_none.2 rowsOk.symm)
    refine ⟨_, he, rfl, rfl, (completesListed_of_report he rfl).frame.mono (regsWritten_drw_subset x y n) (List.Subset.refl _),
      fun px py hx _ => State.pixel_drawn _ _ rowsOk hx, fun hn => ?_, fun hn => ?_⟩
    · subst hn
      rw [State.reg_reporting, BitVec.toNat_zero, State.drawn_zero, State.reg_advance]
    · have rows := nibble_toNat_pos hn
      rw [Nat.add_sub_assoc rows s.i.toNat]
      exact State.reg_drawn_flag _ _ rows (by omega)
  · have rows := nibble_toNat_pos hn
    exact faults_of_raise (exec_drw_of_outOfRange (firstOutOfRange_eq_some.2 ⟨rows, by omega, rfl⟩))
  · have rows := nibble_toNat_pos hn
    exact faults_of_raise (exec_drw_of_badRow (firstOutOfRange_eq_none.2 (.inr (by omega)))
      (firstBadRow_eq_some.2 ⟨rows, by omega, rfl⟩))

/-! ### What follows of a draw that does not fault -/

theorem FaultTaken.not_running {s t : State} {k : FaultKind} {w : Option Word} {a : Option Nat} (h : FaultTaken s t k w a) :
    ¬ t.Running := by
  obtain ⟨faulted, -⟩ := h
  exact fun running => Status.noConfusion (faulted.symm.trans running)

theorem Faults.not_running {i : Instr} {s t : State} {k : FaultKind} {a : Option Nat} (h : Faults i s k a)
    (he : exec i s = .next t) : ¬ t.Running := by
  obtain ⟨_, he', taken⟩ := h
  cases he'.symm.trans he
  exact taken.not_running

/-- A draw that ends Running has passed both checks. -/
theorem drw_checks_of_running {x y : RegIdx} {n : Nibble} {s t : State} (he : exec (.drw x y n) s = .next t) (running : t.Running) :
    n = 0#4 ∨ (s.i.toNat + n.toNat - 1 < memSize ∧ (s.reg y).toNat + n.toNat - 1 < 32) := by
  obtain ⟨-, bounds, rows⟩ := drawXorsSprite x y n s
  by_cases hn : n = 0#4
  · exact .inl hn
  have inside : s.i.toNat + n.toNat - 1 < memSize := Nat.lt_of_not_le fun outside => (bounds hn outside).not_running he running
  exact .inr ⟨inside, Nat.lt_of_not_le fun badRow => (rows hn inside badRow).not_running he running⟩

/-- Every row of every glyph has bit 0 clear (R33, R173; log 1). -/
theorem font_lastBit : ∀ a < 80, (font.getD a 0#8).getLsbD 0 = false := by decide

/-- Settles O49: the flag is O48's; a second draw (O48 again) XORs the same sprite into what the first one left; no glyph row has bit 0. -/
theorem drawFlagIsLastBitOnly : Obligations.DrawFlagIsLastBitOnly := by
  intro x y n s t hn _ he running
  have fits := drw_checks_of_running he running
  obtain ⟨_, he', -, -, frame, pixels, -, flag⟩ := (drawXorsSprite x y n s).1 fits
  cases he'.symm.trans he
  refine ⟨flag hn, fun u w hfb hmem hi hx hy hw => ?_, fun fontInPlace inFont => ?_⟩
  · have hi' : u.i = s.i := hi.trans (frame.index (by decide))
    have hread : ∀ a, u.mem.read a = s.mem.read a := fun a => by rw [hmem, frame.memory (by decide)]
    obtain ⟨_, hw', -, -, -, pixels', -, flag'⟩ := (drawXorsSprite x y n u).1 (by rwa [hi', hy])
    cases hw'.symm.trans hw
    simp only [hi', hread, hx, hy, hfb] at pixels' flag'
    refine ⟨fun px py hpx hpy => ?_, fun collided => ?_⟩
    · rw [pixels' px py hpx hpy, pixels px py hpx hpy, Bool.xor_assoc, Bool.xor_self, Bool.xor_false]
    · by_contra bitClear
      rw [flag' hn, if_neg fun h => bitClear h.1] at collided
      exact absurd collided (by decide)
  · have rows := nibble_toNat_pos hn
    rw [flag hn, fontInPlace _ (by omega), font_lastBit _ (by omega)]
    exact if_neg fun h => Bool.false_ne_true h.1

/-! ### The reported rectangle -/

/-- The rectangle of a draw report holds every pixel the sprite covers: eight columns from `x`, or all where they wrap (R174). -/
theorem DrawReport.covers_of_spritePixel {d : DrawReport} {rowAt : Nat → Byte} {px py : Nat} (hx : px < 64)
    (h : spritePixel rowAt d.x.toNat d.y.toNat d.n.toNat px py = true) : d.covers px py = true := by
  simp only [spritePixel, Bool.and_eq_true, decide_eq_true_eq] at h
  obtain ⟨⟨top, bottom, column⟩, -⟩ := h
  exact decide_eq_true ⟨top, bottom, by omega⟩

/-- Settles O50: a pixel the draw (O48) changed is one the sprite covers. -/
theorem drawReportCoversChanges : Obligations.DrawReportCoversChanges := by
  intro x y n s t px py _ he running hx hy changed
  obtain ⟨_, he', -, report, -, pixels, -, -⟩ := (drawXorsSprite x y n s).1 (drw_checks_of_running he running)
  cases he'.symm.trans he
  refine ⟨_, report, DrawReport.covers_of_spritePixel (rowAt := fun k => s.mem.read (s.i.toNat + k)) hx ?_⟩
  by_contra untouched
  rw [pixels px py hx hy, Bool.eq_false_of_not_eq_true untouched, Bool.xor_false] at changed
  exact changed rfl

end Sys2Proof.Machine
end

/-! Key tests, the delay timer and the key wait (44_keys_timers.md R190 to R196): a key test is a skip on the key's bit once the key
number is known to be one, and a fault otherwise. -/
section
namespace Sys2Proof.Machine

/-! ### The key number -/

theorem badKey_of_le {b : Byte} (h : b.toNat ≤ 15) : badKey b = none := if_neg (Nat.not_lt_of_le h)

theorem badKey_of_lt {b : Byte} (h : 15 < b.toNat) : badKey b = some b.toNat := if_pos h

/-! ### Key tests -/

theorem exec_skp_of_badKey {x : RegIdx} {s : State} {k : Nat} (hk : badKey (s.reg x) = some k) :
    exec (.skp x) s = s.raise (.skp x) .keyIndexOutOfRange (some k) := by
  simp only [exec, execSkp, hk]

theorem exec_sknp_of_badKey {x : RegIdx} {s : State} {k : Nat} (hk : badKey (s.reg x) = some k) :
    exec (.sknp x) s = s.raise (.sknp x) .keyIndexOutOfRange (some k) := by
  simp only [exec, execSknp, hk]

theorem exec_skp_of_key {x : RegIdx} {s : State} (hk : badKey (s.reg x) = none) :
    exec (.skp x) s = .next (s.advance.skipIf (s.keyHeld (s.reg x).toNat)) := by
  simp only [exec, execSkp, hk]

theorem exec_sknp_of_key {x : RegIdx} {s : State} (hk : badKey (s.reg x) = none) :
    exec (.sknp x) s = .next (s.advance.skipIf (!s.keyHeld (s.reg x).toNat)) := by
  simp only [exec, execSknp, hk]

/-- Settles O51: a key number up to 15 makes each test a skip on that key's bit of `KEYS`; a greater one is the fault's info. -/
theorem keyTestsReadMask : Obligations.KeyTestsReadMask := by
  intro x s
  refine ⟨fun isKey => ?_, fun noKey => ?_⟩
  · have hk := badKey_of_le isKey
    exact ⟨completes_of_skipIf (exec_skp_of_key hk) Iff.rfl,
      completes_of_skipIf (exec_sknp_of_key hk) (iff_of_eq (Bool.not_eq_true' _))⟩
  · have hk := badKey_of_lt noKey
    exact ⟨faults_of_raise (exec_skp_of_badKey hk), faults_of_raise (exec_sknp_of_badKey hk)⟩

/-! ### The delay timer and the key wait -/

/-- Settles O52: Fx07 is one register write, and Fx15 one write of `DT`. -/
theorem timerMoves : Obligations.TimerMoves := by
  intro x s
  exact ⟨completes_of_setReg rfl fun _ written => written, completes_of_exec rfl rfl rfl rfl⟩

/-- Settles O53: neither row of the tables lists a write, and only Fx0A sets a field of the record. -/
theorem keyWaitAndSoundTimerChangeNothing : Obligations.KeyWaitAndSoundTimerChangeNothing := by
  intro x s
  exact ⟨completes_of_exec rfl rfl rfl trivial, completes_of_exec rfl rfl rfl trivial⟩

end Sys2Proof.Machine
end

/-! Faults and the host's operations (60_exceptions.md R210 to R230): a fault that is taken has a record that an instruction's table, the
fetch or the decoder gives it; `STATUS` is written by `step` and `initialize()` alone; and every host operation keeps the invariant. -/
section
namespace Sys2Proof.Machine

/-! ### Taken faults -/

/-- An instruction that leaves the Running state has taken a fault R211 lists for it, with its own word in the record. -/
theorem fault_of_exec {i : Instr} {s t : State} {r : FaultRecord} (running : s.Running) (h : exec i s = .next t)
    (faulted : t.status = .faulted r) :
    ∃ k a, k ∈ faultKinds i ∧ r = ⟨k, s.pc, some (encode i), a⟩ ∧ t = s.takeFault k (some (encode i)) a := by
  rcases exec_keepsToTables i s with ⟨k, a, raises, listed, -⟩ | ⟨u, he, completes⟩
  · cases raises.symm.trans h
    cases faulted
    exact ⟨k, a, listed, rfl, rfl⟩
  · cases he.symm.trans h
    exact nomatch running.symm.trans (completes.status.symm.trans faulted)

/-- A step that leaves the Running state has taken a fault; the record holds the fetched word, or none where the fetch faulted. -/
theorem fault_of_step {s t : State} {r : FaultRecord} (running : s.Running) (h : step s = .next t) (faulted : t.status = .faulted r) :
    r.pc0 = s.pc ∧ t = s.takeFault r.kind r.word r.info ∧
      ((∃ a, s.fetch = .error a ∧ r.word = none) ∨ (∃ w, s.fetch = .ok w ∧ r.word = some w)) := by
  rcases step_cases s with ⟨_, stuck, -⟩ | ⟨-, ⟨a, hf, takes⟩ | ⟨w, e, hf, -, takes⟩ | ⟨w, i, hf, hd, runs⟩⟩
  · exact nomatch running.symm.trans stuck
  · cases takes.symm.trans h
    cases faulted
    exact ⟨rfl, rfl, .inl ⟨a, hf, rfl⟩⟩
  · cases takes.symm.trans h
    cases faulted
    exact ⟨rfl, rfl, .inr ⟨w, hf, rfl⟩⟩
  · obtain ⟨k, a, -, rfl, rfl⟩ := fault_of_exec running (runs.symm.trans h) faulted
    exact ⟨rfl, rfl, .inr ⟨w, hf, congrArg some (encode_of_decodeWord hd)⟩⟩

/-- Settles O16: an instruction that faults has raised what the table lists for it. -/
theorem faultKindsOfInstructions : Obligations.FaultKindsOfInstructions := by
  intro i s t r running h faulted
  obtain ⟨k, a, listed, rfl, -⟩ := fault_of_exec running h faulted
  exact listed

/-! ### `step` as a host operation -/

theorem perform_step_of_step {s t : State} (h : step s = .next t) : perform .step s = .next (t, .stepped t.stepReturn) := by
  simp only [perform, h]

theorem step_of_perform_step {s t : State} {reply : HostReply} (h : perform .step s = .next (t, reply)) : step s = .next t := by
  obtain ⟨u, hu⟩ := stepAlwaysReturns s
  cases (perform_step_of_step hu).symm.trans h
  exact hu

/-! ### The Faulted state -/

/-- Every host operation but `initialize()` leaves a Faulted `STATUS` as it is (R216). -/
theorem perform_keeps_faulted {op : HostOp} {s t : State} {reply : HostReply} {r : FaultRecord} (faulted : s.status = .faulted r)
    (hreinit : op ≠ .reinit) (h : perform op s = .next (t, reply)) : t.status = .faulted r := by
  by_cases hstep : op = .step
  · subst hstep
    obtain ⟨stays, -⟩ := faultedStepChangesNothing s r faulted
    cases stays.symm.trans (step_of_perform_step h)
    exact faulted
  · obtain ⟨status, -⟩ := perform_keeps_status_and_report hstep hreinit h
    exact status.trans faulted

/-- Settles O5: the others keep `STATUS`, and `initialize()` leaves the reset state's. -/
theorem onlyReinitLeavesFaulted : Obligations.OnlyReinitLeavesFaulted := by
  intro op s t reply r faulted h
  refine ⟨fun hreinit => perform_keeps_faulted faulted hreinit h, fun hreinit => ?_⟩
  subst hreinit
  cases h
  rfl

/-- Settles O15: the step took the fault from the state before it, and a Faulted core stays so under steps and host operations. -/
theorem faultsArePrecise : Obligations.FaultsArePrecise := by
  intro s t r running h faulted
  obtain ⟨pc0, taken, word⟩ := fault_of_step running h faulted
  obtain ⟨stays, returned⟩ := faultedStepChangesNothing t r faulted
  refine ⟨taken ▸ faultTaken_takeFault .., pc0, word, returned, stays, fun op u reply hreinit hu => ?_⟩
  have faulted' := perform_keeps_faulted faulted hreinit hu
  exact ⟨faulted', faultedStepChangesNothing u r faulted'⟩

/-! ### Keys, timer and the key wait -/

theorem unchanged_setKeys (s : State) (m : Word) : UnchangedBut [] [.keys] s (s.setKeys m) := by
  constructor <;> simp [State.setKeys, State.reg]

/-- A tick in one write: the timer falls by one and stays at 0 (R223). -/
theorem State.tick_eq (s : State) : s.tick = { s with dt := BitVec.ofNat 8 (s.dt.toNat - 1) } := by
  unfold State.tick
  split
  case isTrue stopped => cases s; cases stopped; rfl
  case isFalse ticking =>
    have positive : s.dt.toNat ≠ 0 := fun e => ticking (BitVec.eq_of_toNat_eq e)
    have falls : s.dt - 1#8 = BitVec.ofNat 8 (s.dt.toNat - 1) := by bv_omega
    rw [falls]

theorem unchanged_tick (s : State) : UnchangedBut [] [.timer] s s.tick := by
  rw [State.tick_eq]
  constructor <;> simp [State.reg]

theorem State.toNat_tick_dt (s : State) : s.tick.dt.toNat = s.dt.toNat - 1 := by
  rw [State.tick_eq]
  exact Nat.mod_eq_of_lt (Nat.lt_of_le_of_lt (Nat.sub_le ..) s.dt.isLt)

@[simp] theorem State.tick_pc (s : State) : s.tick.pc = s.pc := by
  rw [State.tick_eq]

/-- A key number fits in a register (R224). -/
theorem State.toNat_reg_resolveWait (s : State) (r : RegIdx) (k : Nibble) : ((s.resolveWait r k).reg r).toNat = k.toNat := by
  rw [State.resolveWait, State.reg_setReg_same]
  exact BitVec.toNat_setWidth_of_le (by decide)

/-- Settles O2: each of the three is one write, whatever `STATUS` is. -/
theorem hostWritesKeysTimerAndRegister : Obligations.HostWritesKeysTimerAndRegister := by
  intro s
  exact ⟨fun m => ⟨_, rfl, rfl, rfl, unchanged_setKeys s m⟩, ⟨_, rfl, s.toNat_tick_dt, s.tick_pc, unchanged_tick s⟩,
    fun r k => ⟨_, rfl, s.toNat_reg_resolveWait r k, rfl, unchanged_setReg s r _⟩⟩

theorem State.stepReturn_of_report {s : State} {r : Report} (running : s.Running) (hr : s.report = some r) :
    s.stepReturn = some (.ok r) := by
  simp only [State.stepReturn, show s.status = .running from running, hr, Option.map_some]

/-- Settles O54: the step is Fx0A (O53), and `resolve_wait` is one register write (O2) to the state it leaves. -/
theorem keyWaitProtocol : Obligations.KeyWaitProtocol := by
  intro x k s running hf
  obtain ⟨⟨t, he, hpc, hreport, waits, -⟩, -⟩ := keyWaitAndSoundTimerChangeNothing x s
  have hstep : step s = .next t := (step_of_decodeWord running hf (decodeWord_encode rfl)).trans he
  have returned := State.stepReturn_of_report ((waits.status (by simp)).trans running) hreport
  obtain ⟨-, -, resolve⟩ := hostWritesKeysTimerAndRegister t
  obtain ⟨u, hu, hreg, hpc', resolves⟩ := resolve x k
  exact ⟨t, u, returned ▸ perform_step_of_step hstep, hpc, waits, hu, hreg, hpc'.trans hpc,
    (waits.mono (by simp) (by simp)).trans resolves⟩

/-! ### The invariant -/

/-- The invariant does not speak of `V`, `I`, `DT`, `KEYS`, `FB` and the draw counter. -/
theorem State.Inv.congr {s t : State} (hs : s.Inv) (mem : t.mem = s.mem) (stack : t.stack = s.stack) (pc : t.pc = s.pc)
    (status : t.status = s.status) (report : t.report = s.report) : t.Inv where
  memCanonical := mem ▸ hs.memCanonical
  memInRange := mem ▸ hs.memInRange
  stackBounded := stack ▸ hs.stackBounded
  reportExclusive r hr := hs.reportExclusive r (report ▸ hr)
  faultPrecise r hr := by rw [pc, report]; exact hs.faultPrecise r (status ▸ hr)

/-- An image that fits is stored in canonical form at existing addresses (R253). -/
theorem State.Inv.loadImage {s : State} (hs : s.Inv) {image : List Byte} (fits : imageTooLarge image = false) :
    (s.loadImage image).Inv where
  memCanonical := Memory.wf_writeBytes hs.memCanonical _ _
  memInRange := by
    rw [imageTooLarge_eq, decide_eq_false_iff_not] at fits
    have := memSize_ge
    have room : 0x200 + image.length ≤ memSize := by omega
    exact Memory.inRange_writeBytes hs.memInRange room
  stackBounded := hs.stackBounded
  reportExclusive := hs.reportExclusive
  faultPrecise := hs.faultPrecise

/-- Every host operation keeps the invariant. -/
theorem perform_inv {op : HostOp} {s t : State} {reply : HostReply} (hs : s.Inv) (h : perform op s = .next (t, reply)) : t.Inv := by
  cases op with
  | step => exact stepKeepsInvariant s t hs (step_of_perform_step h)
  | reinit => cases h; exact resetMeetsInvariant.congr rfl rfl rfl rfl rfl
  | loadProgram image =>
    simp only [perform] at h
    split at h
    case isTrue => cases h; exact hs
    case isFalse fits => cases h; exact hs.loadImage (Bool.eq_false_of_not_eq_true fits)
  | tick => cases h; rw [State.tick_eq]; exact hs.congr rfl rfl rfl rfl rfl
  | setKeys | resolveWait => cases h; exact hs.congr rfl rfl rfl rfl rfl
  | readState | dumpState => cases h; exact hs

/-- A sequence of host operations is its first operation, then the rest (R228). -/
theorem performAll_cons {op : HostOp} {rest : List HostOp} {s t : State} (h : performAll (op :: rest) s = .next t) :
    ∃ u reply, perform op s = .next (u, reply) ∧ performAll rest u = .next t := by
  simp only [performAll] at h
  split at h
  case h_1 u reply first => exact ⟨u, reply, first, h⟩
  case h_2 => cases h
  case h_3 => cases h

/-- What every host operation keeps, every sequence of them keeps. -/
theorem performAll_keeps {P : State → Prop} (keeps : ∀ {op s t reply}, P s → perform op s = .next (t, reply) → P t)
    {ops : List HostOp} {s t : State} (hs : P s) (h : performAll ops s = .next t) : P t := by
  induction ops generalizing s with
  | nil => cases h; exact hs
  | cons op rest ih =>
    obtain ⟨u, reply, first, others⟩ := performAll_cons h
    exact ih (keeps hs first) others

/-- Settles O19: each operation keeps the invariant, so by induction on the sequence all of them do. -/
theorem hostSequencesKeepInvariant : Obligations.HostSequencesKeepInvariant :=
  fun _ _ _ hs h => performAll_keeps perform_inv hs h

end Sys2Proof.Machine
end

/-! Reset, loading and boot (60_exceptions.md R250 to R255): `initialize()` leaves the reset table, `load_program` is one store of the
image at 0x200 or a refusal, and after the two the fetch at 0x200 reads the image's first two bytes. -/
section
namespace Sys2Proof.Machine

/-! ### The reset table -/

/-- `initialize()` resets all that the table names, from any state (R250). -/
theorem State.atReset_initializeCore (s : State) : s.initializeCore.AtReset where
  regs _ := Vector.getElem_replicate ..
  index := rfl
  pc := rfl
  stack := rfl
  timer := rfl
  keys := rfl
  fontBytes _ _ := rfl
  otherBytes _ past _ := Memory.background_zero past
  screen px py _ _ := Framebuffer.pixel_blank px py
  status := rfl

theorem perform_reinit (s : State) : perform .reinit s = .next (s.initializeCore, .done) := rfl

/-- Settles O1: `initialize()` leaves the table, and on the state after reset it changes nothing. -/
theorem reinitLeavesResetTable : Obligations.ReinitLeavesResetTable :=
  ⟨State.reset.atReset_initializeCore, fun s => ⟨_, perform_reinit s, s.atReset_initializeCore⟩⟩

/-! ### Loading an image -/

/-- `load_program` of an image that fits (R253). -/
theorem perform_loadProgram_of_fits {image : List Byte} (s : State) (fits : image.length ≤ memSize - 0x200) :
    perform (.loadProgram image) s = .next (s.loadImage image, .done) := by
  simp only [perform, imageTooLarge_eq, decide_eq_true_eq, Nat.not_lt.2 fits, if_false]

/-- `load_program` of an image that does not fit (R254). -/
theorem perform_loadProgram_of_tooLarge {image : List Byte} (s : State) (tooLarge : memSize - 0x200 < image.length) :
    perform (.loadProgram image) s = .next (s, .imageTooLarge) := by
  simp only [perform, imageTooLarge_eq, decide_eq_true_eq, tooLarge, if_true]

/-- A loaded image is read back from 0x200 up. -/
theorem State.read_loadImage_inside (s : State) (image : List Byte) (k : Nat) (hk : k < image.length) :
    (s.loadImage image).mem.read (0x200 + k) = image[k] :=
  Memory.read_writeBytes_inside s.mem 0x200 image k hk

/-- Loading leaves every byte outside the image alone. -/
theorem State.read_loadImage_outside (s : State) (image : List Byte) {a : Nat} (outside : a < 0x200 ∨ 0x200 + image.length ≤ a) :
    (s.loadImage image).mem.read a = s.mem.read a :=
  Memory.read_writeBytes_outside s.mem outside

/-- Loading changes memory only. -/
theorem unchanged_loadImage (s : State) (image : List Byte) : UnchangedBut [] [.memory] s (s.loadImage image) := by
  constructor <;> simp [State.loadImage, State.reg]

/-- Settles O3: an image that fits is one store at 0x200, and one that does not is refused with the state as it was. -/
theorem loadProgramCopiesImage : Obligations.LoadProgramCopiesImage := by
  intro image s
  exact ⟨fun fits => ⟨_, perform_loadProgram_of_fits s fits, s.read_loadImage_inside image, fun _ => s.read_loadImage_outside image,
    rfl, unchanged_loadImage s image⟩, perform_loadProgram_of_tooLarge s⟩

/-! ### Boot -/

/-- From 0x200 the fetch reads the first two bytes of a loaded image (R72). -/
theorem State.fetch_loadImage {s : State} (hpc : s.pc = 0x200#16) (hi lo : Byte) (rest : List Byte) :
    (s.loadImage (hi :: lo :: rest)).fetch = .ok (hi ++ lo) := by
  have base : (s.loadImage (hi :: lo :: rest)).pc.toNat = 0x200 := congrArg BitVec.toNat hpc
  have first := s.read_loadImage_inside (hi :: lo :: rest) 0 (by simp)
  have second := s.read_loadImage_inside (hi :: lo :: rest) 1 (by simp)
  rw [fetch_of_inRange (by rw [base]; decide), base, first, second]
  rfl

/-- The boot order of R255 for an image that fits: the reset state with the image stored. -/
theorem performAll_boot {image : List Byte} (s : State) (fits : image.length ≤ memSize - 0x200) :
    performAll [.reinit, .loadProgram image] s = .next (s.initializeCore.loadImage image) := by
  simp only [performAll, perform_reinit, perform_loadProgram_of_fits _ fits]

/-- Settles O4: `initialize()` leaves a Running core at 0x200, loading writes memory only, and the fetch reads what was loaded. -/
theorem bootFetchesFirstImageWord : Obligations.BootFetchesFirstImageWord := by
  intro hi lo rest s t fits h
  cases (performAll_boot (image := hi :: lo :: rest) s fits).symm.trans h
  have atReset := s.atReset_initializeCore
  exact ⟨atReset.status, atReset.pc, State.fetch_loadImage atReset.pc hi lo rest⟩

end Sys2Proof.Machine
end
